-- ==== Sys2Proof/Word.lean ====
section
/-! DEFINITION. The word, its fields and the text line: the types of `00_scope.md` R5 to R8. -/

namespace Sys2Proof

/-- An instruction word: 32 bits, bit 31 the most significant (R5 `WORD_BITS`, R6). -/
abbrev Word := BitVec 32

/-- A 6-bit opcode or funct code (R5 `OPCODE_BITS`, `FUNCT_BITS`). -/
abbrev Code := BitVec 6

/-- A 5-bit register index, the contents of rs, rt or rd (R5 `REG_BITS`, R41). -/
abbrev RegIx := BitVec 5

/-- The 5-bit shift amount field (R5 `SHAMT_BITS`, R43). -/
abbrev Shamt := BitVec 5

/-- The 16-bit immediate field (R5 `IMM_BITS`, R42). -/
abbrev Imm := BitVec 16

/-- The 26-bit jump address field (R5 `ADDR_BITS`, R44). -/
abbrev Addr := BitVec 26

/-- One line of text: a finite sequence of Unicode scalar values, of any length (R63, R99; D2, D21). -/
abbrev Line := List Char

/-- A token of a line (R69). -/
abbrev Token := List Char

end Sys2Proof
end

