-- ==== Sys2Proof/Config.lean ====
section
/-! DEFINITION. What an implementation of the block fixes: the shape of the four constant tables (`10_state.md` R11, R14),
the error kinds (`60_exceptions.md` R114), and the one open parameter, the Decoder's sentinel line (`00_scope.md` R5).
The tables' standard VALUES stand in Decode.lean. -/

namespace Sys2Proof

/-- The five error kinds, a closed set (R9, R114).
They are results of a transaction, not stops of the machine (R113). -/
inductive ErrorKind where
  | unknownRegister
  | unknownMnemonic
  | unknownOpcode
  | unknownFunct
  | malformedOperand
  deriving DecidableEq, Repr

/-- The nine members of the R-table (R15). -/
inductive ROp where
  | add | sub | and | or | xor | slt | sll | srl | jr
  deriving DecidableEq, Repr

/-- The seven members of the I-table (R16). -/
inductive IOp where
  | addi | slti | lui | lw | sw | beq | bne
  deriving DecidableEq, Repr

/-- The two members of the J-table (R17). -/
inductive JOp where
  | j | jal
  deriving DecidableEq, Repr

/-- A table mnemonic, by the table it is a member of (R40: the format is a function of the mnemonic alone).
`nop` is in no table (R14). -/
inductive Mnemonic where
  | r (op : ROp)
  | i (op : IOp)
  | j (op : JOp)
  deriving DecidableEq, Repr

/-- The R-table: one 6-bit funct code per member (R15). -/
structure RTable where
  add : Code
  sub : Code
  and : Code
  or  : Code
  xor : Code
  slt : Code
  sll : Code
  srl : Code
  jr  : Code
  deriving DecidableEq, Repr

/-- The I-table: one 6-bit opcode per member (R16). -/
structure ITable where
  addi : Code
  slti : Code
  lui  : Code
  lw   : Code
  sw   : Code
  beq  : Code
  bne  : Code
  deriving DecidableEq, Repr

/-- The J-table: one 6-bit opcode per member (R17). -/
structure JTable where
  j   : Code
  jal : Code
  deriving DecidableEq, Repr

/-- The four tables, all the state the spec gives the block (R10, R24).
The members are fixed by the source; names and codes are data, so that laws can be stated for every admissible table (D27). -/
structure Tables where
  regNames : Vector Line 32
  rTable   : RTable
  iTable   : ITable
  jTable   : JTable
  deriving DecidableEq, Repr

/-- The raw choice of `SENTINEL_LINE` (R5, D12), left open by the spec.
DESIGN CHOICE (log entry 3), safe: no body, so nothing can be proved of its value. -/
opaque Config.sentinelChoice : Line

end Sys2Proof
end

