-- ==== Sys2Proof/Syntax.lean ====
section
/-! DEFINITION. The instructions: one constructor per row of `spec/opcode_table.json`, operands in text order
(`30_encoding.md` R51), each operand the contents of the field it fills. -/

namespace Sys2Proof

/-- The 18 mnemonics of the closed set and the literal `nop` (R1, R50, R51).
The fields a mnemonic does not use are no operands of it (R48). -/
inductive Instr where
  | nop
  | add  (rd rs rt : RegIx)
  | sub  (rd rs rt : RegIx)
  | and  (rd rs rt : RegIx)
  | or   (rd rs rt : RegIx)
  | xor  (rd rs rt : RegIx)
  | slt  (rd rs rt : RegIx)
  | sll  (rd rt : RegIx) (shamt : Shamt)
  | srl  (rd rt : RegIx) (shamt : Shamt)
  | jr   (rs : RegIx)
  | addi (rt rs : RegIx) (imm : Imm)
  | slti (rt rs : RegIx) (imm : Imm)
  | lui  (rt : RegIx) (imm : Imm)
  | lw   (rt : RegIx) (imm : Imm) (rs : RegIx)
  | sw   (rt : RegIx) (imm : Imm) (rs : RegIx)
  | beq  (rs rt : RegIx) (imm : Imm)
  | bne  (rs rt : RegIx) (imm : Imm)
  | j    (addr : Addr)
  | jal  (addr : Addr)
  deriving DecidableEq, Repr

end Sys2Proof
end

