-- ==== Sys2Proof/WellFormed.lean ====
section
/-! DEFINITION. Well-formed instructions: those the Decoder can name. Every operand is a field of fixed width, so a field
can hold nothing outside its range, and one check is left. -/

namespace Sys2Proof

/-- `sll $zero, $zero, 0` is a line the Encoder accepts, but its word is the zero word, which is `nop`'s
(R46, R52, R87; `90_conflicts.md` C3): no word decodes to it. -/
def Instr.wellFormed : Instr → Bool
  | .sll rd rt shamt => !(rd == 0#5 && rt == 0#5 && shamt == 0#5)
  | .nop | .add .. | .sub .. | .and .. | .or .. | .xor .. | .slt .. | .srl .. | .jr .. => true
  | .addi .. | .slti .. | .lui .. | .lw .. | .sw .. | .beq .. | .bne .. => true
  | .j .. | .jal .. => true

end Sys2Proof
end

