-- ==== Sys2Proof/Decode.lean ====
section
/-! DEFINITION. The tables' spellings and standard values, the Bit-Field Codec, the word and its text form, the decoder from
words to instructions and the encoder back (`10_state.md`, `30_encoding.md`, `40_bitfield_codec.md`, `45_decoder.md`). -/

namespace Sys2Proof

/-! ### The Format Tables: spellings, codes, lookup both ways (R14 to R17, R26) -/

/-- The spellings of the R-table's members (R15). -/
def ROp.name : ROp → Line
  | .add => ['a', 'd', 'd']
  | .sub => ['s', 'u', 'b']
  | .and => ['a', 'n', 'd']
  | .or  => ['o', 'r']
  | .xor => ['x', 'o', 'r']
  | .slt => ['s', 'l', 't']
  | .sll => ['s', 'l', 'l']
  | .srl => ['s', 'r', 'l']
  | .jr  => ['j', 'r']

/-- The spellings of the I-table's members (R16). -/
def IOp.name : IOp → Line
  | .addi => ['a', 'd', 'd', 'i']
  | .slti => ['s', 'l', 't', 'i']
  | .lui  => ['l', 'u', 'i']
  | .lw   => ['l', 'w']
  | .sw   => ['s', 'w']
  | .beq  => ['b', 'e', 'q']
  | .bne  => ['b', 'n', 'e']

/-- The spellings of the J-table's members (R17). -/
def JOp.name : JOp → Line
  | .j   => ['j']
  | .jal => ['j', 'a', 'l']

/-- The literal `nop`, in no table (R14, R68). -/
def nopText : Line := ['n', 'o', 'p']

/-- A table mnemonic's spelling. -/
def Mnemonic.name : Mnemonic → Line
  | .r op => op.name
  | .i op => op.name
  | .j op => op.name

/-- The members of the R-table, in the order of R15. -/
def ROp.all : List ROp := [.sll, .srl, .jr, .add, .sub, .and, .or, .xor, .slt]

/-- The members of the I-table, in the order of R16. -/
def IOp.all : List IOp := [.beq, .bne, .addi, .slti, .lui, .lw, .sw]

/-- The members of the J-table, in the order of R17. -/
def JOp.all : List JOp := [.j, .jal]

/-- The 18 table mnemonics: the union of the three tables (R71). -/
def Mnemonic.all : List Mnemonic :=
  ROp.all.map Mnemonic.r ++ IOp.all.map Mnemonic.i ++ JOp.all.map Mnemonic.j

/-- Lookup by mnemonic in the three tables, by exact comparison (R71; D7): the member that `tok` spells. -/
def Mnemonic.ofToken? (tok : Token) : Option Mnemonic :=
  Mnemonic.all.find? fun m => m.name == tok

/-- The R-table read from mnemonic to funct (R26). -/
def RTable.code (t : RTable) : ROp → Code
  | .add => t.add
  | .sub => t.sub
  | .and => t.and
  | .or  => t.or
  | .xor => t.xor
  | .slt => t.slt
  | .sll => t.sll
  | .srl => t.srl
  | .jr  => t.jr

/-- The I-table read from mnemonic to opcode (R26). -/
def ITable.code (t : ITable) : IOp → Code
  | .addi => t.addi
  | .slti => t.slti
  | .lui  => t.lui
  | .lw   => t.lw
  | .sw   => t.sw
  | .beq  => t.beq
  | .bne  => t.bne

/-- The J-table read from mnemonic to opcode (R26). -/
def JTable.code (t : JTable) : JOp → Code
  | .j   => t.j
  | .jal => t.jal

/-- The R-table read from funct to mnemonic, `R⁻¹` of R102. -/
def RTable.find? (t : RTable) (c : Code) : Option ROp := ROp.all.find? fun op => t.code op == c

/-- The I-table read from opcode to mnemonic, `I⁻¹` of R102. -/
def ITable.find? (t : ITable) (c : Code) : Option IOp := IOp.all.find? fun op => t.code op == c

/-- The J-table read from opcode to mnemonic, `J⁻¹` of R102. -/
def JTable.find? (t : JTable) (c : Code) : Option JOp := JOp.all.find? fun op => t.code op == c

/-- The funct codes of R15: `add` and `sll` the source's, the others decision D11 (PRESUMED, log entry 8). -/
def RTable.standard : RTable where
  sll := 0#6
  srl := 2#6
  jr  := 8#6
  add := 32#6
  sub := 34#6
  and := 36#6
  or  := 37#6
  xor := 38#6
  slt := 42#6

/-- The opcodes of R16: `addi` the source's, the others decision D11 (PRESUMED, log entry 8). -/
def ITable.standard : ITable where
  beq  := 4#6
  bne  := 5#6
  addi := 8#6
  slti := 10#6
  lui  := 15#6
  lw   := 35#6
  sw   := 43#6

/-- The opcodes of R17: `j` the source's, `jal` decision D11 (PRESUMED, log entry 8). -/
def JTable.standard : JTable where
  j   := 2#6
  jal := 3#6

/-- The register names of R13, index 0 first: `zero t0 t1 t2` the source's, the others decision D10 (PRESUMED,
log entry 8). -/
def regNamesStandard : Vector Line 32 := #v[
  ['z', 'e', 'r', 'o'], ['a', 't'], ['v', '0'], ['v', '1'], ['a', '0'], ['a', '1'], ['a', '2'], ['a', '3'],
  ['t', '0'], ['t', '1'], ['t', '2'], ['t', '3'], ['t', '4'], ['t', '5'], ['t', '6'], ['t', '7'],
  ['s', '0'], ['s', '1'], ['s', '2'], ['s', '3'], ['s', '4'], ['s', '5'], ['s', '6'], ['s', '7'],
  ['t', '8'], ['t', '9'], ['k', '0'], ['k', '1'], ['g', 'p'], ['s', 'p'], ['f', 'p'], ['r', 'a']]

/-- The four tables of the block this spec describes (R13, R15, R16, R17, R23). -/
def Tables.standard : Tables where
  regNames := regNamesStandard
  rTable := RTable.standard
  iTable := ITable.standard
  jTable := JTable.standard

/-- The invariants a builder of the block must establish (R132, from R11 and R14), and the entries the source itself fixes
(the rows of R13, R15, R16, R17 with ground "source"; DESIGN CHOICE, log entry 2).
That no mnemonic is in two tables and `nop` in none holds by the members' fixed spellings (Laws/Tables.lean). -/
def Tables.wf (T : Tables) : Bool :=
  decide T.regNames.toList.Nodup
    && decide (ROp.all.map T.rTable.code).Nodup
    && decide (IOp.all.map T.iTable.code ++ JOp.all.map T.jTable.code).Nodup
    && !(IOp.all.map T.iTable.code ++ JOp.all.map T.jTable.code).contains 0#6
    && (T.rTable.add == RTable.standard.add && T.rTable.sll == RTable.standard.sll)
    && (T.iTable.addi == ITable.standard.addi && T.jTable.j == JTable.standard.j)
    && [0, 8, 9, 10].all fun i => T.regNames[i]? == regNamesStandard[i]?

/-! ### The Bit-Field Codec (R53 to R55) -/

/-- `pack(value, width)`: the `width`-bit vector of `value mod 2^width`, for any integer (R53). -/
def pack (value : Int) (width : Nat) : BitVec width := BitVec.ofInt width value

/-- `unpackUnsigned(f)`: plain base-2 interpretation (R54). -/
def unpackUnsigned {w : Nat} (f : BitVec w) : Int := f.toNat

/-- `unpackSigned(f)`: two's-complement interpretation (R55). -/
def unpackSigned {w : Nat} (f : BitVec w) : Int := f.toInt

/-! ### Word and text (R56, R57) -/

/-- `WordText(W)`: 32 characters, character `i` is bit `31 - i` (R56). -/
def wordText (w : Word) : Line :=
  (List.range 32).map fun i => if w.getLsbD (31 - i) then '1' else '0'

/-- The domain of `TextWord`: exactly 32 characters, each `0` or `1` (R57). -/
def isWordText (t : Line) : Bool :=
  t.length == 32 && t.all fun c => c == '0' || c == '1'

/-- `TextWord(T)`: bit `31 - i` is 1 exactly when `T[i] = '1'`; undefined outside its domain (R57). -/
def textWord (t : Line) : Option Word :=
  if isWordText t then some ((BitVec.ofBoolListBE (t.map fun c => c == '1')).setWidth 32) else none

/-! ### Fields of a word (R6, R39, R101) -/

def opcodeField (w : Word) : Code  := w.extractLsb 31 26
def rsField     (w : Word) : RegIx := w.extractLsb 25 21
def rtField     (w : Word) : RegIx := w.extractLsb 20 16
def rdField     (w : Word) : RegIx := w.extractLsb 15 11
def shamtField  (w : Word) : Shamt := w.extractLsb 10 6
def functField  (w : Word) : Code  := w.extractLsb 5 0
def immField    (w : Word) : Imm   := w.extractLsb 15 0
def addrField   (w : Word) : Addr  := w.extractLsb 25 0

/-! ### From words to instructions (R102) -/

/-- The R-format arm of R102, for a funct in the R-table: the `nop` test before `sll`. -/
def decodeR (w : Word) : ROp → Instr
  | .sll =>
    if rdField w = 0#5 ∧ rtField w = 0#5 ∧ shamtField w = 0#5 then .nop
    else .sll (rdField w) (rtField w) (shamtField w)
  | .srl => .srl (rdField w) (rtField w) (shamtField w)
  | .jr  => .jr (rsField w)
  | .add => .add (rdField w) (rsField w) (rtField w)
  | .sub => .sub (rdField w) (rsField w) (rtField w)
  | .and => .and (rdField w) (rsField w) (rtField w)
  | .or  => .or (rdField w) (rsField w) (rtField w)
  | .xor => .xor (rdField w) (rsField w) (rtField w)
  | .slt => .slt (rdField w) (rsField w) (rtField w)

/-- The I-format arm of R102. -/
def decodeI (w : Word) : IOp → Instr
  | .addi => .addi (rtField w) (rsField w) (immField w)
  | .slti => .slti (rtField w) (rsField w) (immField w)
  | .lui  => .lui (rtField w) (immField w)
  | .lw   => .lw (rtField w) (immField w) (rsField w)
  | .sw   => .sw (rtField w) (immField w) (rsField w)
  | .beq  => .beq (rsField w) (rtField w) (immField w)
  | .bne  => .bne (rsField w) (rtField w) (immField w)

/-- The J-format arm of R102. -/
def decodeJ (w : Word) : JOp → Instr
  | .j   => .j (addrField w)
  | .jal => .jal (addrField w)

/-- The Decoder's dispatch on a word, with the tables `T` (R102): total, rejecting by the error kinds of R104. -/
def decodeWith (T : Tables) (w : Word) : Except ErrorKind Instr :=
  if opcodeField w = 0#6 then
    match T.rTable.find? (functField w) with
    | some op => .ok (decodeR w op)
    | none => .error .unknownFunct
  else
    match T.iTable.find? (opcodeField w) with
    | some op => .ok (decodeI w op)
    | none =>
      match T.jTable.find? (opcodeField w) with
      | some op => .ok (decodeJ w op)
      | none => .error .unknownOpcode

/-- The decoder of the block this spec describes. -/
def decode (w : Word) : Except ErrorKind Instr := decodeWith Tables.standard w

/-! ### From instructions to words (R35 to R37, R48, R76) -/

/-- R format (R35): `pack(0,6) ++ rs ++ rt ++ rd ++ shamt ++ funct`. -/
def rWord (rs rt rd : RegIx) (shamt : Shamt) (funct : Code) : Word :=
  pack 0 6 ++ rs ++ rt ++ rd ++ shamt ++ funct

/-- I format (R36): `opcode ++ rs ++ rt ++ immediate`. -/
def iWord (opcode : Code) (rs rt : RegIx) (imm : Imm) : Word :=
  opcode ++ rs ++ rt ++ imm

/-- J format (R37): `opcode ++ address`. -/
def jWord (opcode : Code) (addr : Addr) : Word :=
  opcode ++ addr

/-- The word of an instruction with the tables `T`: the `W` of the Encode part of R80 to R98, unused fields 0 (R48). -/
def encodeWith (T : Tables) : Instr → Word
  | .nop => 0#32
  | .add rd rs rt => rWord rs rt rd (pack 0 5) T.rTable.add
  | .sub rd rs rt => rWord rs rt rd (pack 0 5) T.rTable.sub
  | .and rd rs rt => rWord rs rt rd (pack 0 5) T.rTable.and
  | .or rd rs rt  => rWord rs rt rd (pack 0 5) T.rTable.or
  | .xor rd rs rt => rWord rs rt rd (pack 0 5) T.rTable.xor
  | .slt rd rs rt => rWord rs rt rd (pack 0 5) T.rTable.slt
  | .sll rd rt shamt => rWord (pack 0 5) rt rd shamt T.rTable.sll
  | .srl rd rt shamt => rWord (pack 0 5) rt rd shamt T.rTable.srl
  | .jr rs => rWord rs (pack 0 5) (pack 0 5) (pack 0 5) T.rTable.jr
  | .addi rt rs imm => iWord T.iTable.addi rs rt imm
  | .slti rt rs imm => iWord T.iTable.slti rs rt imm
  | .lui rt imm => iWord T.iTable.lui (pack 0 5) rt imm
  | .lw rt imm rs => iWord T.iTable.lw rs rt imm
  | .sw rt imm rs => iWord T.iTable.sw rs rt imm
  | .beq rs rt imm => iWord T.iTable.beq rs rt imm
  | .bne rs rt imm => iWord T.iTable.bne rs rt imm
  | .j addr => jWord T.jTable.j addr
  | .jal addr => jWord T.jTable.jal addr

/-- The encoder of the block this spec describes: the word of a well-formed instruction. -/
def encode (i : Instr) : Word := encodeWith Tables.standard i

/-! ### Canonical words (R48, R109) -/

/-- The bits of an instruction's word that it does not use (R48). -/
def unusedBits : Instr → Word
  | .nop => 0x03E00000#32
  | .add .. | .sub .. | .and .. | .or .. | .xor .. | .slt .. => 0x000007C0#32
  | .sll .. | .srl .. => 0x03E00000#32
  | .jr .. => 0x001FFFC0#32
  | .lui .. => 0x03E00000#32
  | .addi .. | .slti .. | .lw .. | .sw .. | .beq .. | .bne .. | .j .. | .jal .. => 0#32

/-- `canon(W)`: `W` with every field its instruction does not use set to 0, for a word that decodes (R109). -/
def canonWith (T : Tables) (w : Word) : Option Word :=
  match decodeWith T w with
  | .ok i => some (w &&& ~~~unusedBits i)
  | .error _ => none

/-! ### The host's reading of the opcode table -/

/-- The word whose low `nbits` bits are those of `w`, every bit above them 0. -/
def tableWord (nbits w : Nat) : Word := BitVec.ofNat 32 (w % 2 ^ nbits)

/-- The instruction the decoder reads from a word of the opcode table, handed over in the only form the block takes a word
in, its 32-character text (R27, R56). -/
def decodeTableWord (nbits w : Nat) : Option Instr :=
  match textWord (wordText (tableWord nbits w)) with
  | none => none
  | some word =>
    match decode word with
    | .ok i => some i
    | .error _ => none

end Sys2Proof
end

