-- ==== Sys2Proof/Machine/Operands.lean ====
section
/-! DEFINITION. Operands as text: register tokens, integer literals and decimal numerals, and the operand shapes of
`30_encoding.md` R51 in both directions, reading a token list and printing the canonical text. -/

namespace Sys2Proof.Machine

/-! ### Registers (R12, R73, R106) -/

/-- The sigil `$` of a register operand (R5). -/
def sigil : Char := '$'

/-- `RegName(i)`: total on 0..31 (R12). -/
def regName (T : Tables) (i : RegIx) : Line := T.regNames[i.toNat]'i.isLt

/-- `RegIndex(name)`: the index of an exactly matching name, else `UnknownRegister` (R12). -/
def regIndex (T : Tables) (name : Line) : Except ErrorKind RegIx :=
  match T.regNames.toList.findIdx? (fun n => n == name) with
  | some k => .ok (BitVec.ofNat 5 k)
  | none => .error .unknownRegister

/-- `Reg(tok)`: a token without the sigil is `MalformedOperand`, an unknown name behind it `UnknownRegister` (R73). -/
def regOperand (T : Tables) : Token → Except ErrorKind RegIx
  | [] => .error .malformedOperand
  | c :: name => if c = sigil then regIndex T name else .error .malformedOperand

/-- A register in printed text: the sigil and the name (R106). -/
def regText (T : Tables) (i : RegIx) : Line := sigil :: regName T i

/-! ### Numerals (R58, R59) -/

/-- The value of an ASCII decimal digit (R58). -/
def digitValue? (c : Char) : Option Nat :=
  if '0' ≤ c ∧ c ≤ '9' then some (c.toNat - 48) else none

/-- Digits read left to right in base 10, after those already read to `acc`. -/
def digitsValue? (acc : Nat) : List Char → Option Nat
  | [] => some acc
  | c :: cs =>
    match digitValue? c with
    | some d => digitsValue? (10 * acc + d) cs
    | none => none

/-- One or more digits (R58). -/
def numeralValue? : List Char → Option Nat
  | [] => none
  | c :: cs => digitsValue? 0 (c :: cs)

/-- `Int(tok)`: an optional `-` and one or more decimal digits, of unbounded magnitude, else `MalformedOperand`
(R58; D8, D21). -/
def intOperand (tok : Token) : Except ErrorKind Int :=
  match tok with
  | [] => .error .malformedOperand
  | c :: cs =>
    if c = '-' then
      match numeralValue? cs with
      | some n => .ok (-(n : Int))
      | none => .error .malformedOperand
    else
      match numeralValue? (c :: cs) with
      | some n => .ok (n : Int)
      | none => .error .malformedOperand

/-- The decimal digit of `d`, for `d` below 10. -/
def digitChar (d : Nat) : Char := Char.ofNat (48 + d)

/-- The decimal digits of `n`, most significant first, for `fuel` at least the number of digits. -/
def natDigits : Nat → Nat → List Char
  | 0, n => [digitChar (n % 10)]
  | fuel + 1, n => if n < 10 then [digitChar n] else natDigits fuel (n / 10) ++ [digitChar (n % 10)]

/-- The shortest decimal numeral of a natural number; a number has no more digits than its own value. -/
def natText (n : Nat) : Line := natDigits n n

/-- `dec(v)`: the shortest base-10 numeral, `-` before a negative one (R59, R107; D14). -/
def decText (v : Int) : Line :=
  if v < 0 then '-' :: natText v.natAbs else natText v.natAbs

/-! ### Reading operands (R72 to R75): the count first, then the tokens from left to right -/

/-- Three registers, in text order. -/
def readRegRegReg (T : Tables) (mk : RegIx → RegIx → RegIx → Instr) : List Token → Except ErrorKind Instr
  | [a, b, c] => do
    let x ← regOperand T a
    let y ← regOperand T b
    let z ← regOperand T c
    return mk x y z
  | _ => .error .malformedOperand

/-- Two registers and an integer packed into `w` bits (R42, R43, R74). -/
def readRegRegInt (T : Tables) (w : Nat) (mk : RegIx → RegIx → BitVec w → Instr) : List Token → Except ErrorKind Instr
  | [a, b, c] => do
    let x ← regOperand T a
    let y ← regOperand T b
    let v ← intOperand c
    return mk x y (pack v w)
  | _ => .error .malformedOperand

/-- One register. -/
def readReg (T : Tables) (mk : RegIx → Instr) : List Token → Except ErrorKind Instr
  | [a] => do
    let x ← regOperand T a
    return mk x
  | _ => .error .malformedOperand

/-- A register and a 16-bit immediate. -/
def readRegImm (T : Tables) (mk : RegIx → Imm → Instr) : List Token → Except ErrorKind Instr
  | [a, b] => do
    let x ← regOperand T a
    let v ← intOperand b
    return mk x (pack v 16)
  | _ => .error .malformedOperand

/-- The tokens of `$rt, imm($rs)`: register, 16-bit immediate, register (R93). -/
def readRegImmReg (T : Tables) (mk : RegIx → Imm → RegIx → Instr) : List Token → Except ErrorKind Instr
  | [a, b, c] => do
    let x ← regOperand T a
    let v ← intOperand b
    let y ← regOperand T c
    return mk x (pack v 16) y
  | _ => .error .malformedOperand

/-- One integer packed into the 26-bit address (R44). -/
def readAddr (mk : Addr → Instr) : List Token → Except ErrorKind Instr
  | [a] => do
    let v ← intOperand a
    return mk (pack v 26)
  | _ => .error .malformedOperand

/-! ### Printing operands (R51, R105) -/

/-- Between two operands: a comma and one space (R105). -/
def commaText : Line := [',', ' ']

/-- `m $a, $b, $c` -/
def textRegRegReg (T : Tables) (m : Line) (a b c : RegIx) : Line :=
  m ++ [' '] ++ regText T a ++ commaText ++ regText T b ++ commaText ++ regText T c

/-- `m $a, $b, v` -/
def textRegRegInt (T : Tables) (m : Line) (a b : RegIx) (v : Int) : Line :=
  m ++ [' '] ++ regText T a ++ commaText ++ regText T b ++ commaText ++ decText v

/-- `m $a` -/
def textReg (T : Tables) (m : Line) (a : RegIx) : Line :=
  m ++ [' '] ++ regText T a

/-- `m $a, v` -/
def textRegImm (T : Tables) (m : Line) (a : RegIx) (v : Int) : Line :=
  m ++ [' '] ++ regText T a ++ commaText ++ decText v

/-- `m $a, v($b)` -/
def textRegImmReg (T : Tables) (m : Line) (a : RegIx) (v : Int) (b : RegIx) : Line :=
  m ++ [' '] ++ regText T a ++ commaText ++ decText v ++ ['('] ++ regText T b ++ [')']

/-- `m v` -/
def textAddr (m : Line) (v : Int) : Line :=
  m ++ [' '] ++ decText v

end Sys2Proof.Machine
end

