-- ==== Sys2Proof/Machine/FrontEnd.lean ====
section
/-! DEFINITION. The line front end: comment, trimming, skip classes, the `nop` literal, tokens and the mnemonic
(`41_encoder_frontend.md` R63 to R71), and the Decoder's input test (`45_decoder.md` R100). Where the source is open the spec's
decisions are followed (log entries 9 and 10). -/

namespace Sys2Proof.Machine

/-- `COMMENT_CHAR` (R5, R64; D3). -/
def commentChar : Char := '#'

/-- `DIRECTIVE_CHAR` (R5, R66). -/
def directiveChar : Char := '.'

/-- `LABEL_CHAR` (R5, R67). -/
def labelChar : Char := ':'

/-- The whitespace set `WS`: U+0009 to U+000D and U+0020 (R5, R65; D4). -/
def isWs (c : Char) : Bool :=
  c == '\t' || c == '\n' || c == '\x0b' || c == '\x0c' || c == '\r' || c == ' '

/-- The delimiters of R69: the comma, the parentheses and `WS` (D6). -/
def isDelimiter (c : Char) : Bool :=
  c == ',' || c == '(' || c == ')' || isWs c

/-- `StripComment(line)` (R64). -/
def stripComment (line : Line) : Line :=
  line.takeWhile fun c => c != commentChar

/-- `Trim(s)` (R65). -/
def trim (s : Line) : Line :=
  ((s.dropWhile isWs).reverse.dropWhile isWs).reverse

/-- The pieces between delimiter characters, the empty ones among them. -/
def pieces : Line → List Token
  | [] => [[]]
  | c :: cs =>
    if isDelimiter c then [] :: pieces cs
    else
      match pieces cs with
      | [] => [[c]]
      | p :: ps => (c :: p) :: ps

/-- `Tokens(s)`: the non-empty pieces, in order (R69). -/
def tokens (s : Line) : List Token :=
  (pieces s).filter fun p => !p.isEmpty

/-- What the Encoder makes of a line before it looks at an operand. -/
inductive LineClass where
  /-- Empty, comment only, directive or label (R65 to R67). -/
  | skip
  /-- The literal `nop` (R68). -/
  | nop
  /-- No token, or a first token in no Format Table (R70, R71). -/
  | unknown
  /-- A table mnemonic and its operand tokens (R71). -/
  | operation (m : Mnemonic) (ops : List Token)
  deriving DecidableEq, Repr

/-- The Encoder's classification of a line, test by test in the order of R63. -/
def classify (line : Line) : LineClass :=
  let s := trim (stripComment line)
  if s = [] then .skip
  else if s.head? = some directiveChar then .skip
  else if s.getLast? = some labelChar then .skip
  else if s = nopText then .nop
  else
    match tokens s with
    | [] => .unknown
    | tok :: ops =>
      match Mnemonic.ofToken? tok with
      | none => .unknown
      | some m => .operation m ops

/-- The constraints on `SENTINEL_LINE`: not empty, no outer whitespace, not 32 binary digits (R100; D12). -/
def sentinelAdmissible (t : Line) : Bool :=
  !t.isEmpty && trim t == t && !isWordText t

/-- `SENTINEL_LINE`: the implementation's choice if it meets the constraints, else a line that does.
Nothing is provable of it but that it meets them (log entry 3). -/
def sentinelLine : Line :=
  if sentinelAdmissible Config.sentinelChoice then Config.sentinelChoice else ['<', 's', 'e', 'n', 't', 'i', 'n', 'e', 'l', '>']

/-- The sentinel test of R100 (b) on a trimmed line. The first conjunct follows from the second (`sentinelLine` is admissible);
it lets the test come out false on a word line without looking at the open parameter. -/
def isSentinel (t : Line) : Bool :=
  sentinelAdmissible t && t == sentinelLine

end Sys2Proof.Machine
end

