-- ==== Sys2Proof/Machine/State.lean ====
section
/-! DEFINITION. The machine's state and the reasons a step can stop.

The block itself holds four read-only tables and nothing else (`10_state.md` R10, R24): no registers, program counter, flags,
control registers or memory (R18 to R22, R25). Beside them stand the two ends of the transaction interface (R134, R137):
the lines the driver has presented and the results the block has returned. -/

namespace Sys2Proof.Machine

/-- The two agents (R2). -/
inductive Agent where
  | encoder
  | decoder
  deriving DecidableEq, Repr

/-- One unit of work: one whole line presented to one agent (R134). -/
structure Request where
  agent : Agent
  line  : Line
  deriving DecidableEq, Repr

/-- The payload of an `Ok` result: a word for the Encoder, a text line for the Decoder (R9). -/
inductive Payload where
  | word (w : Word)
  | text (t : Line)
  deriving DecidableEq, Repr

/-- The result of a transaction: exactly one of three (R9).
The `info` of a raised error is dropped, as R113 allows (U2; log entry 12). -/
inductive Result where
  | skip
  | ok (payload : Payload)
  | error (kind : ErrorKind)
  deriving DecidableEq, Repr

/-- The machine: the spec's four tables, and the model's two interface lists (log entry 1). -/
structure State where
  /-- The Register Table and the three Format Tables (R10, R24). -/
  tables  : Tables
  /-- The model's own: lines presented and not yet answered, the next one first. -/
  pending : List Request
  /-- The model's own: results returned so far, one per answered line, in input order (R120). -/
  output  : List Result
  deriving DecidableEq, Repr

/-- Nothing raises a fault, so there is none to name: the block has "no fatal error, no halt state and no way to stop itself"
(R121), and its five error kinds are results (R113; DEDUCED, log entry 13). -/
inductive Fault where
  deriving DecidableEq, Repr

/-- The refusals: situations about which the spec says nothing, and the model therefore claims nothing. -/
inductive Refusal where
  /-- An instruction without a meaning; raised by no arm of this model. Safe. -/
  | notModelled (mnemonic : String)
  /-- Raised by a Decoder transaction whose trimmed line is not empty, not the sentinel and not 32 binary digits: outside the
  contract (R100 (d), R116; D13, U4). Safe: the spec gives no result. -/
  | notAWord
  /-- Raised by a step of a block built with tables that break the invariants of R132 or the source's own entries
  (U18, U19; D27). Safe: "the spec says nothing of a block built with tables that break them". -/
  | tablesBroken
  deriving DecidableEq, Repr

/-- The machine right after reset: the tables at their constants (R24, R129, R130), no line presented, no result returned
(log entry 1). -/
def State.reset : State where
  tables := Tables.standard
  pending := []
  output := []

end Sys2Proof.Machine
end

