-- ==== Sys2Proof/Machine/Ops.lean ====
section
/-! DEFINITION. The shared operations on the state: returning a result, raising an error, answering with the pair of
translations of an instruction, and reset. There are no memory and no register operations, the block having neither
(`10_state.md` R18, `20_memory.md` R25). -/

namespace Sys2Proof.Machine

/-- Return the result of the transaction in progress: the line is answered and its result comes next in the output
(R118, R120). With no line presented there is no transaction to answer. -/
def State.deliver (s : State) (r : Result) : State :=
  match s.pending with
  | [] => s
  | _ :: rest => { s with pending := rest, output := s.output ++ [r] }

/-- `raise K`: the transaction ends at once with `Error(K)` and nothing else happens: no state is saved, no mode changes,
control goes nowhere (R113, R118). There is no return operation beside it: "There is no return instruction and nothing to
restore", and the next transaction starts from the same tables (R119). -/
def State.raiseError (s : State) (k : ErrorKind) : State :=
  s.deliver (.error k)

/-- The effect of an instruction is its pair of translations: the Encoder answers with its word, the Decoder with its text
(`42_r_format.md`, before R80; DEDUCED, log entry 7). With no line presented there is nothing to translate and nothing changes (log entry 6). -/
def State.answer (s : State) (word : Word) (text : Line) : Host.Outcome State Fault Refusal :=
  match s.pending with
  | [] => .next s
  | ⟨.encoder, _⟩ :: _ => .next (s.deliver (.ok (.word word)))
  | ⟨.decoder, _⟩ :: _ => .next (s.deliver (.ok (.text text)))

/-- A reset of a running block: "a reset has nothing to clear and nothing to set" (R129).
A line whose transaction the reset cuts has no result and is still to be presented, so it stays (D16, log entry 5). -/
def State.resetBlock (s : State) : State := s

end Sys2Proof.Machine
end

