-- ==== Sys2Proof/Machine/IFormat.lean ====
section
/-! DEFINITION. The I-format instructions (`43_i_format.md` R90 to R96). The literal is packed into 16 bits without a check, and
the field is printed sign-extended for every one of them, `lui` included (`30_encoding.md` R42). -/

namespace Sys2Proof.Machine

/-! ### `addi` (R90) -/

def readAddi (T : Tables) (ops : List Token) : Except ErrorKind Instr :=
  readRegRegInt T 16 (fun rt rs imm => .addi rt rs imm) ops

def textAddi (T : Tables) (rt rs : RegIx) (imm : Imm) : Line :=
  textRegRegInt T (IOp.name .addi) rt rs (unpackSigned imm)

def execAddi (rt rs : RegIx) (imm : Imm) (s : State) : Host.Outcome State Fault Refusal :=
  s.answer (encodeWith s.tables (.addi rt rs imm)) (textAddi s.tables rt rs imm)

/-! ### `slti` (R91) -/

def readSlti (T : Tables) (ops : List Token) : Except ErrorKind Instr :=
  readRegRegInt T 16 (fun rt rs imm => .slti rt rs imm) ops

def textSlti (T : Tables) (rt rs : RegIx) (imm : Imm) : Line :=
  textRegRegInt T (IOp.name .slti) rt rs (unpackSigned imm)

def execSlti (rt rs : RegIx) (imm : Imm) (s : State) : Host.Outcome State Fault Refusal :=
  s.answer (encodeWith s.tables (.slti rt rs imm)) (textSlti s.tables rt rs imm)

/-! ### `lui` (R92) -/

def readLui (T : Tables) (ops : List Token) : Except ErrorKind Instr :=
  readRegImm T (fun rt imm => .lui rt imm) ops

def textLui (T : Tables) (rt : RegIx) (imm : Imm) : Line :=
  textRegImm T (IOp.name .lui) rt (unpackSigned imm)

def execLui (rt : RegIx) (imm : Imm) (s : State) : Host.Outcome State Fault Refusal :=
  s.answer (encodeWith s.tables (.lui rt imm)) (textLui s.tables rt imm)

/-! ### `lw` (R93): a spelling; nothing is loaded (R25) -/

def readLw (T : Tables) (ops : List Token) : Except ErrorKind Instr :=
  readRegImmReg T (fun rt imm rs => .lw rt imm rs) ops

def textLw (T : Tables) (rt : RegIx) (imm : Imm) (rs : RegIx) : Line :=
  textRegImmReg T (IOp.name .lw) rt (unpackSigned imm) rs

def execLw (rt : RegIx) (imm : Imm) (rs : RegIx) (s : State) : Host.Outcome State Fault Refusal :=
  s.answer (encodeWith s.tables (.lw rt imm rs)) (textLw s.tables rt imm rs)

/-! ### `sw` (R94): a spelling; nothing is stored (R25) -/

def readSw (T : Tables) (ops : List Token) : Except ErrorKind Instr :=
  readRegImmReg T (fun rt imm rs => .sw rt imm rs) ops

def textSw (T : Tables) (rt : RegIx) (imm : Imm) (rs : RegIx) : Line :=
  textRegImmReg T (IOp.name .sw) rt (unpackSigned imm) rs

def execSw (rt : RegIx) (imm : Imm) (rs : RegIx) (s : State) : Host.Outcome State Fault Refusal :=
  s.answer (encodeWith s.tables (.sw rt imm rs)) (textSw s.tables rt imm rs)

/-! ### `beq` (R95): rs stands first; the literal is no label and is not scaled -/

def readBeq (T : Tables) (ops : List Token) : Except ErrorKind Instr :=
  readRegRegInt T 16 (fun rs rt imm => .beq rs rt imm) ops

def textBeq (T : Tables) (rs rt : RegIx) (imm : Imm) : Line :=
  textRegRegInt T (IOp.name .beq) rs rt (unpackSigned imm)

def execBeq (rs rt : RegIx) (imm : Imm) (s : State) : Host.Outcome State Fault Refusal :=
  s.answer (encodeWith s.tables (.beq rs rt imm)) (textBeq s.tables rs rt imm)

/-! ### `bne` (R96) -/

def readBne (T : Tables) (ops : List Token) : Except ErrorKind Instr :=
  readRegRegInt T 16 (fun rs rt imm => .bne rs rt imm) ops

def textBne (T : Tables) (rs rt : RegIx) (imm : Imm) : Line :=
  textRegRegInt T (IOp.name .bne) rs rt (unpackSigned imm)

def execBne (rs rt : RegIx) (imm : Imm) (s : State) : Host.Outcome State Fault Refusal :=
  s.answer (encodeWith s.tables (.bne rs rt imm)) (textBne s.tables rs rt imm)

end Sys2Proof.Machine
end

