-- ==== Sys2Proof/Machine/JFormat.lean ====
section
/-! DEFINITION. The J-format instructions (`44_j_format.md` R97, R98). The literal is packed with wraparound and the field is
printed unsigned; the source calls the asymmetry intentional (`30_encoding.md` R44). Nothing is jumped to and no link register
is written (`10_state.md` R18, R19). -/

namespace Sys2Proof.Machine

/-! ### `j` (R97) -/

def readJ (ops : List Token) : Except ErrorKind Instr :=
  readAddr (fun addr => .j addr) ops

def textJ (addr : Addr) : Line := textAddr (JOp.name .j) (unpackUnsigned addr)

def execJ (addr : Addr) (s : State) : Host.Outcome State Fault Refusal :=
  s.answer (encodeWith s.tables (.j addr)) (textJ addr)

/-! ### `jal` (R98) -/

def readJal (ops : List Token) : Except ErrorKind Instr :=
  readAddr (fun addr => .jal addr) ops

def textJal (addr : Addr) : Line := textAddr (JOp.name .jal) (unpackUnsigned addr)

def execJal (addr : Addr) (s : State) : Host.Outcome State Fault Refusal :=
  s.answer (encodeWith s.tables (.jal addr)) (textJal addr)

end Sys2Proof.Machine
end

