-- ==== Sys2Proof/Machine/RFormat.lean ====
section
/-! DEFINITION. The R-format instructions (`42_r_format.md` R80 to R89). For each: how the Encoder reads its operands, the text
the Decoder prints, and the meaning, which answers with its word or that text. -/

namespace Sys2Proof.Machine

/-! ### `nop` (R80): no operands; its line is recognised whole (R68) -/

def textNop : Line := nopText

def execNop (s : State) : Host.Outcome State Fault Refusal :=
  s.answer (encodeWith s.tables .nop) textNop

/-! ### `add` (R81) -/

def readAdd (T : Tables) (ops : List Token) : Except ErrorKind Instr :=
  readRegRegReg T (fun rd rs rt => .add rd rs rt) ops

def textAdd (T : Tables) (rd rs rt : RegIx) : Line := textRegRegReg T (ROp.name .add) rd rs rt

def execAdd (rd rs rt : RegIx) (s : State) : Host.Outcome State Fault Refusal :=
  s.answer (encodeWith s.tables (.add rd rs rt)) (textAdd s.tables rd rs rt)

/-! ### `sub` (R82) -/

def readSub (T : Tables) (ops : List Token) : Except ErrorKind Instr :=
  readRegRegReg T (fun rd rs rt => .sub rd rs rt) ops

def textSub (T : Tables) (rd rs rt : RegIx) : Line := textRegRegReg T (ROp.name .sub) rd rs rt

def execSub (rd rs rt : RegIx) (s : State) : Host.Outcome State Fault Refusal :=
  s.answer (encodeWith s.tables (.sub rd rs rt)) (textSub s.tables rd rs rt)

/-! ### `and` (R83) -/

def readAnd (T : Tables) (ops : List Token) : Except ErrorKind Instr :=
  readRegRegReg T (fun rd rs rt => .and rd rs rt) ops

def textAnd (T : Tables) (rd rs rt : RegIx) : Line := textRegRegReg T (ROp.name .and) rd rs rt

def execAnd (rd rs rt : RegIx) (s : State) : Host.Outcome State Fault Refusal :=
  s.answer (encodeWith s.tables (.and rd rs rt)) (textAnd s.tables rd rs rt)

/-! ### `or` (R84) -/

def readOr (T : Tables) (ops : List Token) : Except ErrorKind Instr :=
  readRegRegReg T (fun rd rs rt => .or rd rs rt) ops

def textOr (T : Tables) (rd rs rt : RegIx) : Line := textRegRegReg T (ROp.name .or) rd rs rt

def execOr (rd rs rt : RegIx) (s : State) : Host.Outcome State Fault Refusal :=
  s.answer (encodeWith s.tables (.or rd rs rt)) (textOr s.tables rd rs rt)

/-! ### `xor` (R85) -/

def readXor (T : Tables) (ops : List Token) : Except ErrorKind Instr :=
  readRegRegReg T (fun rd rs rt => .xor rd rs rt) ops

def textXor (T : Tables) (rd rs rt : RegIx) : Line := textRegRegReg T (ROp.name .xor) rd rs rt

def execXor (rd rs rt : RegIx) (s : State) : Host.Outcome State Fault Refusal :=
  s.answer (encodeWith s.tables (.xor rd rs rt)) (textXor s.tables rd rs rt)

/-! ### `slt` (R86) -/

def readSlt (T : Tables) (ops : List Token) : Except ErrorKind Instr :=
  readRegRegReg T (fun rd rs rt => .slt rd rs rt) ops

def textSlt (T : Tables) (rd rs rt : RegIx) : Line := textRegRegReg T (ROp.name .slt) rd rs rt

def execSlt (rd rs rt : RegIx) (s : State) : Host.Outcome State Fault Refusal :=
  s.answer (encodeWith s.tables (.slt rd rs rt)) (textSlt s.tables rd rs rt)

/-! ### `sll` (R87): the shift amount is the literal's low 5 bits, printed unsigned (R43) -/

def readSll (T : Tables) (ops : List Token) : Except ErrorKind Instr :=
  readRegRegInt T 5 (fun rd rt shamt => .sll rd rt shamt) ops

def textSll (T : Tables) (rd rt : RegIx) (shamt : Shamt) : Line :=
  textRegRegInt T (ROp.name .sll) rd rt (unpackUnsigned shamt)

def execSll (rd rt : RegIx) (shamt : Shamt) (s : State) : Host.Outcome State Fault Refusal :=
  s.answer (encodeWith s.tables (.sll rd rt shamt)) (textSll s.tables rd rt shamt)

/-! ### `srl` (R88) -/

def readSrl (T : Tables) (ops : List Token) : Except ErrorKind Instr :=
  readRegRegInt T 5 (fun rd rt shamt => .srl rd rt shamt) ops

def textSrl (T : Tables) (rd rt : RegIx) (shamt : Shamt) : Line :=
  textRegRegInt T (ROp.name .srl) rd rt (unpackUnsigned shamt)

def execSrl (rd rt : RegIx) (shamt : Shamt) (s : State) : Host.Outcome State Fault Refusal :=
  s.answer (encodeWith s.tables (.srl rd rt shamt)) (textSrl s.tables rd rt shamt)

/-! ### `jr` (R89) -/

def readJr (T : Tables) (ops : List Token) : Except ErrorKind Instr :=
  readReg T (fun rs => .jr rs) ops

def textJr (T : Tables) (rs : RegIx) : Line := textReg T (ROp.name .jr) rs

def execJr (rs : RegIx) (s : State) : Host.Outcome State Fault Refusal :=
  s.answer (encodeWith s.tables (.jr rs)) (textJr s.tables rs)

end Sys2Proof.Machine
end

