-- ==== Sys2Proof/Machine/Codec.lean ====
section
/-! DEFINITION. The two transactions as functions of the line and the tables (`70_reset_and_hazards.md` R137): `EncodeLine`
(`41_encoder_frontend.md` R63), `DecodeWord` and `DecodeLine` (`45_decoder.md` R99, R102); and what a transaction finds before
an instruction is translated, which the step runs. -/

namespace Sys2Proof.Machine

/-- What a transaction finds on its line. -/
inductive Fetched where
  | skip
  | error (kind : ErrorKind)
  | instr (i : Instr)
  deriving DecidableEq, Repr

/-- The operand part of `EncodeR`, `EncodeI`, `EncodeJ` (R63, R71 to R75), by mnemonic. -/
def readOperands (T : Tables) (m : Mnemonic) (ops : List Token) : Except ErrorKind Instr :=
  match m with
  | .r .add => readAdd T ops
  | .r .sub => readSub T ops
  | .r .and => readAnd T ops
  | .r .or  => readOr T ops
  | .r .xor => readXor T ops
  | .r .slt => readSlt T ops
  | .r .sll => readSll T ops
  | .r .srl => readSrl T ops
  | .r .jr  => readJr T ops
  | .i .addi => readAddi T ops
  | .i .slti => readSlti T ops
  | .i .lui => readLui T ops
  | .i .lw  => readLw T ops
  | .i .sw  => readSw T ops
  | .i .beq => readBeq T ops
  | .i .bne => readBne T ops
  | .j .j   => readJ ops
  | .j .jal => readJal ops

/-- `EncodeR`, `EncodeI`, `EncodeJ`: the word of a mnemonic and its operand tokens (R63, R76). -/
def encodeOperation (T : Tables) (m : Mnemonic) (ops : List Token) : Except ErrorKind Word :=
  (readOperands T m ops).map (encodeWith T)

/-- The text the Decoder prints for an instruction (R105). -/
def render (T : Tables) : Instr → Line
  | .nop => textNop
  | .add rd rs rt => textAdd T rd rs rt
  | .sub rd rs rt => textSub T rd rs rt
  | .and rd rs rt => textAnd T rd rs rt
  | .or rd rs rt => textOr T rd rs rt
  | .xor rd rs rt => textXor T rd rs rt
  | .slt rd rs rt => textSlt T rd rs rt
  | .sll rd rt shamt => textSll T rd rt shamt
  | .srl rd rt shamt => textSrl T rd rt shamt
  | .jr rs => textJr T rs
  | .addi rt rs imm => textAddi T rt rs imm
  | .slti rt rs imm => textSlti T rt rs imm
  | .lui rt imm => textLui T rt imm
  | .lw rt imm rs => textLw T rt imm rs
  | .sw rt imm rs => textSw T rt imm rs
  | .beq rs rt imm => textBeq T rs rt imm
  | .bne rs rt imm => textBne T rs rt imm
  | .j addr => textJ addr
  | .jal addr => textJal addr

/-- What the Encoder finds on a line: a skip, an error, or an instruction with its operands read (R63). -/
def encoderFetch (T : Tables) (line : Line) : Fetched :=
  match classify line with
  | .skip => .skip
  | .nop => .instr .nop
  | .unknown => .error .unknownMnemonic
  | .operation m ops =>
    match readOperands T m ops with
    | .ok i => .instr i
    | .error k => .error k

/-- What the Decoder finds in a word. -/
def wordFetch (T : Tables) (w : Word) : Fetched :=
  match decodeWith T w with
  | .ok i => .instr i
  | .error k => .error k

/-- What the Decoder finds on a line, test by test in the order of R99 and R100; a line outside the contract is refused. -/
def decoderFetch (T : Tables) (line : Line) : Except Refusal Fetched :=
  let t := trim line
  if t = [] then .ok .skip
  else if isSentinel t then .ok .skip
  else
    match textWord t with
    | none => .error .notAWord
    | some w => .ok (wordFetch T w)

/-- What the agent of a request finds on its line. -/
def fetch (T : Tables) (r : Request) : Except Refusal Fetched :=
  match r.agent with
  | .encoder => .ok (encoderFetch T r.line)
  | .decoder => decoderFetch T r.line

/-- The result of a transaction in which `f` was found: an instruction gives the agent's translation of it. -/
def Fetched.result (T : Tables) (a : Agent) : Fetched → Result
  | .skip => .skip
  | .error k => .error k
  | .instr i =>
    match a with
    | .encoder => .ok (.word (encodeWith T i))
    | .decoder => .ok (.text (render T i))

/-- `EncodeLine(line)` (R63). -/
def encodeLine (T : Tables) (line : Line) : Result :=
  (encoderFetch T line).result T .encoder

/-- `DecodeWord(W)`: total on the 2^32 words (R99, R102). -/
def decodeWord (T : Tables) (w : Word) : Result :=
  (wordFetch T w).result T .decoder

/-- `DecodeLine(line)`: a result, or the refusal `NotAWord` (R99). -/
def decodeLine (T : Tables) (line : Line) : Except Refusal Result :=
  (decoderFetch T line).map (Fetched.result T .decoder)

/-- One whole transaction of either agent, as a function of its line and the tables (R31 (a), R137). -/
def transact (T : Tables) (r : Request) : Except Refusal Result :=
  (fetch T r).map (Fetched.result T r.agent)

end Sys2Proof.Machine
end

