-- ==== Sys2Proof/Machine/Dispatch.lean ====
section
/-! DEFINITION. One arm per constructor of Instr, each one call of that instruction's meaning. -/

namespace Sys2Proof.Machine

def exec (i : Instr) (s : State) : Host.Outcome State Fault Refusal :=
  match i with
  -- R format
  | .nop => Sys2Proof.Machine.execNop s
  | .add rd rs rt => Sys2Proof.Machine.execAdd rd rs rt s
  | .sub rd rs rt => Sys2Proof.Machine.execSub rd rs rt s
  | .and rd rs rt => Sys2Proof.Machine.execAnd rd rs rt s
  | .or rd rs rt => Sys2Proof.Machine.execOr rd rs rt s
  | .xor rd rs rt => Sys2Proof.Machine.execXor rd rs rt s
  | .slt rd rs rt => Sys2Proof.Machine.execSlt rd rs rt s
  | .sll rd rt shamt => Sys2Proof.Machine.execSll rd rt shamt s
  | .srl rd rt shamt => Sys2Proof.Machine.execSrl rd rt shamt s
  | .jr rs => Sys2Proof.Machine.execJr rs s
  -- I format
  | .addi rt rs imm => Sys2Proof.Machine.execAddi rt rs imm s
  | .slti rt rs imm => Sys2Proof.Machine.execSlti rt rs imm s
  | .lui rt imm => Sys2Proof.Machine.execLui rt imm s
  | .lw rt imm rs => Sys2Proof.Machine.execLw rt imm rs s
  | .sw rt imm rs => Sys2Proof.Machine.execSw rt imm rs s
  | .beq rs rt imm => Sys2Proof.Machine.execBeq rs rt imm s
  | .bne rs rt imm => Sys2Proof.Machine.execBne rs rt imm s
  -- J format
  | .j addr => Sys2Proof.Machine.execJ addr s
  | .jal addr => Sys2Proof.Machine.execJal addr s

end Sys2Proof.Machine
end

