-- ==== Sys2Proof/Machine/Step.lean ====
section
/-! DEFINITION. One step of the machine: one transaction, from the line presented next to its result, atomically
(`20_memory.md` R31, `70_reset_and_hazards.md` R136). -/

namespace Sys2Proof.Machine

/-- One step. With no line presented nothing happens (R135: the block has no halt state; log entry 6).
Otherwise the agent of the next line takes it: a skip or an error is returned as it is, and an instruction is translated by its
meaning. A block with broken tables is refused (R132). -/
def step (s : State) : Host.Outcome State Fault Refusal :=
  if s.tables.wf then
    match s.pending with
    | [] => .next s
    | r :: _ =>
      match fetch s.tables r with
      | .error e => .refused e
      | .ok .skip => .next (s.deliver .skip)
      | .ok (.error k) => .next (s.raiseError k)
      | .ok (.instr i) => exec i s
  else .refused .tablesBroken

/-- `s` with the word `w` of the opcode table presented to the Decoder as the next line, in its 32-character text form
(R27, R134; DESIGN CHOICE, log entry 7). The lines already presented follow it. -/
def State.withFetchWord (s : State) (nbits w : Nat) : State :=
  { s with pending := ⟨.decoder, wordText (tableWord nbits w)⟩ :: s.pending }

end Sys2Proof.Machine
end

