-- ==== Sys2Proof/Machine/Flags.lean ====
section
/-! DEFINITION. The block has no flags, condition codes or predicates: "The only condition a transaction produces is its own
result" (`10_state.md` R20). This file holds what can be asked of that condition. -/

namespace Sys2Proof.Machine

/-- The result writes nothing: not an error (R115). -/
def Result.isSkip : Result → Bool
  | .skip => true
  | .ok _ | .error _ => false

/-- The advisory code number of an error kind (R114; D15). No rule and no other definition depends on it. -/
def errorCode : ErrorKind → Nat
  | .unknownRegister  => 1
  | .unknownMnemonic  => 2
  | .unknownOpcode    => 3
  | .unknownFunct     => 4
  | .malformedOperand => 5

end Sys2Proof.Machine
end

