-- ==== Sys2Proof/Machine/Driver.lean ====
section
/-! DEFINITION. The driver's output bookkeeping for a batch, "stated so that a model of a whole batch can be checked"
(`60_exceptions.md` R120). The driver itself is out of scope (`00_scope.md` R4). -/

namespace Sys2Proof.Machine

/-- One line the driver writes: a payload as one line, or a diagnostic whose wording is unspecified (R118; D23, U1). -/
inductive OutputLine where
  | text (t : Line)
  | diagnostic (kind : ErrorKind)
  deriving DecidableEq, Repr

/-- A payload as one line: a word is delivered as `WordText(W)` (R63, R76). -/
def Payload.line : Payload → Line
  | .word w => wordText w
  | .text t => t

/-- What the driver writes for one result: nothing for `Skip`, one line otherwise (R115, R118, R120). -/
def Result.outputLine : Result → Option OutputLine
  | .skip => none
  | .ok p => some (.text p.line)
  | .error k => some (.diagnostic k)

/-- The output of a batch: the lines of its results, in input order (R120). -/
def batchOutput (results : List Result) : List OutputLine :=
  results.filterMap Result.outputLine

end Sys2Proof.Machine
end

