-- ==== Sys2Proof/Safety.lean ====
section
/-! DEFINITION. What counts as a safe run: one in which the driver presents nothing outside the contract, so that no step
stops (`60_exceptions.md` R116, R121; `70_reset_and_hazards.md` R132, R134, R136). -/

namespace Sys2Proof.Machine

/-- The driver's duty for one line: any line to the Encoder; to the Decoder only a line that trims to nothing, to the sentinel,
or to 32 binary digits (R100, R134). -/
def Request.inContract (r : Request) : Prop :=
  match r.agent with
  | .encoder => True
  | .decoder => trim r.line = [] ∨ isSentinel (trim r.line) = true ∨ isWordText (trim r.line) = true

/-- A safe state: the builder kept the tables' invariants and the driver keeps the contract. -/
structure State.Safe (s : State) : Prop where
  tablesWf : s.tables.wf = true
  contract : ∀ r ∈ s.pending, r.inContract

/-- A safe outcome of a step: not a stop. -/
def SafeOutcome (o : Host.Outcome State Fault Refusal) : Prop :=
  ∃ s', o = .next s'

/-- A run of `n` steps from `s` stops nowhere. -/
def SafeRun (n : Nat) (s : State) : Prop :=
  ∃ s', Sys2Proof.core.run n s = .next s'

/-- Everything delivered so far is in canonical form, with the tables of this spec: a word is one the Encoder can produce
(R78, R109), and a text line is one the Encoder reads back to a word that decodes to the same line (R111). -/
structure State.OutputsCanonical (s : State) : Prop where
  tablesStandard : s.tables = Tables.standard
  words : ∀ w, Result.ok (.word w) ∈ s.output → canonWith Tables.standard w = some w
  texts : ∀ t, Result.ok (.text t) ∈ s.output →
    ∃ w, encodeLine Tables.standard t = .ok (.word w) ∧ decodeWord Tables.standard w = .ok (.text t)

end Sys2Proof.Machine
end

