-- ==== Sys2Proof/Certificates/Slice0/Obligations.lean ====
section
/-! DEFINITION. The statements for the provers. Where a statement says "for admissible tables" (`T.wf`), it holds whatever the
28 register names and 14 codes are that the spec itself decides (`92_eei_decisions.md` D10, D11, D27). -/

open Sys2Proof Sys2Proof.Machine

/-! ### Tables, reset, transactions -/

/-- The reset values of the four tables (`10_state.md` R13, R15 to R17, R24).
All entries but `zero t0 t1 t2`, `add`, `sll`, `addi`, `j` are the spec's own decisions D10 and D11. -/
def Obligations.ResetHoldsTheSpecTables : Prop :=
  State.reset.tables.regNames.toList.map String.ofList =
      ["zero", "at", "v0", "v1", "a0", "a1", "a2", "a3", "t0", "t1", "t2", "t3", "t4", "t5", "t6", "t7",
       "s0", "s1", "s2", "s3", "s4", "s5", "s6", "s7", "t8", "t9", "k0", "k1", "gp", "sp", "fp", "ra"]
    ∧ State.reset.tables.rTable =
      { sll := 0b000000#6, srl := 0b000010#6, jr := 0b001000#6, add := 0b100000#6, sub := 0b100010#6,
        and := 0b100100#6, or := 0b100101#6, xor := 0b100110#6, slt := 0b101010#6 }
    ∧ State.reset.tables.iTable =
      { beq := 0b000100#6, bne := 0b000101#6, addi := 0b001000#6, slti := 0b001010#6, lui := 0b001111#6,
        lw := 0b100011#6, sw := 0b101011#6 }
    ∧ State.reset.tables.jTable = { j := 0b000010#6, jal := 0b000011#6 }

/-- The tables hold the spec's constants from reset on: no step and no reset changes them (`10_state.md` R23). -/
def Obligations.TablesAreNeverMutated : Prop :=
  State.reset.tables = Tables.standard
    ∧ (∀ s s' : State, step s = .next s' → s'.tables = s.tables)
    ∧ ∀ s : State, s.resetBlock.tables = s.tables

/-- The result of a transaction is a function of its line and the tables: two machines with the same tables and the same line
in front return the same result, or refuse alike, whatever was presented or returned before (R77, R108). -/
def Obligations.ResultDependsOnLineAndTablesOnly : Prop :=
  ∀ (s₁ s₂ : State) (q : Request) (rest₁ rest₂ : List Request),
    s₁.tables = s₂.tables → s₁.pending = q :: rest₁ → s₂.pending = q :: rest₂ →
      (∃ r, step s₁ = .next ⟨s₁.tables, rest₁, s₁.output ++ [r]⟩ ∧ step s₂ = .next ⟨s₂.tables, rest₂, s₂.output ++ [r]⟩)
        ∨ ∃ e, step s₁ = .refused e ∧ step s₂ = .refused e

/-- A batch whose lines all have a result returns exactly those results, one per line and in order, errors among them; the
tables stay and nothing is left. That a line is unaffected by an earlier error is `60_exceptions.md` R119, that results come in
input order R120; that one step answers one presented line, in the order of presentation and whichever agent it is for, is the
model's own form (log entries 1 and 11). -/
def Obligations.BatchReturnsOneResultPerLine : Prop :=
  ∀ (s : State) (rs : List Result), s.tables.wf = true → s.pending.mapM (transact s.tables) = .ok rs →
    Sys2Proof.core.run s.pending.length s = .next (⟨s.tables, [], s.output ++ rs⟩ : State) ∧ rs.length = s.pending.length

/-- Presenting the same lines in another order, to either agent, changes no line's result (`20_memory.md` R31 (b)). -/
def Obligations.PresentationOrderChangesNoResult : Prop :=
  ∀ (s₁ s₂ t₁ t₂ : State), s₁.tables = s₂.tables → s₁.tables.wf = true → s₁.output = [] → s₂.output = [] →
    s₁.pending.Perm s₂.pending →
    Sys2Proof.core.run s₁.pending.length s₁ = .next t₁ → Sys2Proof.core.run s₂.pending.length s₂ = .next t₂ →
      (s₁.pending.zip t₁.output).Perm (s₂.pending.zip t₂.output)

/-- What the driver writes for a batch (`60_exceptions.md` R120): the concatenation, in input order, of what each line's result
gives: nothing for a skip, one line for an `Ok` or an error; so the number of lines is the number of inputs less the skips. -/
def Obligations.DriverWritesOneLinePerUnskippedInput : Prop :=
  (∀ a b : List Result, batchOutput (a ++ b) = batchOutput a ++ batchOutput b)
    ∧ batchOutput [.skip] = []
    ∧ (∀ w, batchOutput [.ok (.word w)] = [.text (wordText w)])
    ∧ (∀ t, batchOutput [.ok (.text t)] = [.text t])
    ∧ (∀ k, batchOutput [.error k] = [.diagnostic k])
    ∧ ∀ (s t : State), s.tables.wf = true → s.output = [] → Sys2Proof.core.run s.pending.length s = .next t →
        s.pending.mapM (transact s.tables) = .ok t.output
          ∧ (batchOutput t.output).length + t.output.countP Result.isSkip = s.pending.length

/-- A builder who keeps the tables' invariants and a driver who keeps the contract never see the block stop: every step answers a
next state that is safe again, so every run goes on (`60_exceptions.md` R121, `70_reset_and_hazards.md` R136). -/
def Obligations.SafeRunsNeverStop : Prop :=
  (∀ s : State, s.Safe → ∃ s', step s = .next s' ∧ s'.Safe) ∧ ∀ (n : Nat) (s : State), s.Safe → SafeRun n s

/-- When a step refuses: broken tables, or a Decoder line outside the contract, and then only with the refusal that names it;
and no step faults. Rests on the spec's treatments U18 and U4 (D13, D27) and on log entries 2 and 4. -/
def Obligations.StepRefusesExactlyOutsideTheContract : Prop :=
  ∀ (s : State) (e : Refusal), step s = .refused e ↔
    (s.tables.wf = false ∧ e = .tablesBroken)
      ∨ (s.tables.wf = true ∧ e = .notAWord ∧ ∃ l rest, s.pending = ⟨.decoder, l⟩ :: rest
          ∧ trim l ≠ [] ∧ trim l ≠ sentinelLine ∧ ∀ w, trim l ≠ wordText w)

/-- A step runs the instruction its line holds: the Decoder's the one its word decodes to (R99, R102), the Encoder's the literal
`nop` or the mnemonic with its operands read (R63). The last clause is the model's own choice (DESIGN CHOICE, log entry 7): a word
placed by `withFetchWord` is run as the table's decoder reads it. -/
def Obligations.StepRunsTheInstructionOnTheLine : Prop :=
  (∀ (s : State) (l : Line) (rest : List Request) (w : Word) (i : Instr), s.tables.wf = true →
      s.pending = ⟨.decoder, l⟩ :: rest → trim l = wordText w → decodeWith s.tables w = .ok i → step s = exec i s)
    ∧ (∀ (s : State) (l : Line) (rest : List Request), s.tables.wf = true →
      s.pending = ⟨.encoder, l⟩ :: rest → trim (stripComment l) = "nop".toList → step s = exec .nop s)
    ∧ (∀ (s : State) (l : Line) (rest : List Request) (m : Mnemonic) (ops : List Token) (i : Instr), s.tables.wf = true →
      s.pending = ⟨.encoder, l⟩ :: rest → classify l = .operation m ops → readOperands s.tables m ops = .ok i →
        step s = exec i s)
    ∧ ∀ (s : State) (n w : Nat) (i : Instr), s.tables = Tables.standard → decodeTableWord n w = some i →
      step (s.withFetchWord n w) = exec i (s.withFetchWord n w)

/-! ### The Bit-Field Codec and the numerals (`40_bitfield_codec.md`) -/

/-- `pack` keeps `value mod 2^width`, for any integer, and nothing else (R53). -/
def Obligations.PackKeepsTheResidue : Prop :=
  ∀ (v v' : Int) (w : Nat),
    unpackUnsigned (pack v w) = v % 2 ^ w ∧ (pack v w = pack v' w ↔ v % 2 ^ w = v' % 2 ^ w)

/-- `unpackUnsigned` is the base-2 sum of the bits, `unpackSigned` that less `2^w` when the most significant bit is 1; with their
ranges (R54, R55). -/
def Obligations.UnpackingIsBaseTwo : Prop :=
  ∀ (w : Nat) (f : BitVec w),
    unpackUnsigned f = ∑ i ∈ Finset.range w, (if f.getLsbD i then 2 ^ i else 0)
      ∧ 0 ≤ unpackUnsigned f ∧ unpackUnsigned f ≤ 2 ^ w - 1
      ∧ unpackSigned f = unpackUnsigned f - (if f.getLsbD (w - 1) then 2 ^ w else 0)
      ∧ (0 < w → -2 ^ (w - 1) ≤ unpackSigned f ∧ unpackSigned f ≤ 2 ^ (w - 1) - 1)

/-- The six laws between packing and unpacking (R60, derived there from R53 to R55). -/
def Obligations.PackUnpackLaws : Prop :=
  ∀ (w : Nat) (f : BitVec w) (v : Int), 0 < w →
    unpackUnsigned (pack v w) = v % 2 ^ w
      ∧ pack (unpackUnsigned f) w = f
      ∧ pack (unpackSigned f) w = f
      ∧ (unpackSigned (pack v w) = v ↔ -2 ^ (w - 1) ≤ v ∧ v ≤ 2 ^ (w - 1) - 1)
      ∧ unpackSigned (pack v w) = (v + 2 ^ (w - 1)) % 2 ^ w - 2 ^ (w - 1)
      ∧ (unpackUnsigned (pack v w) = v ↔ 0 ≤ v ∧ v ≤ 2 ^ w - 1)

/-- An implementation may accumulate a literal's digits modulo 2^26 and negate modulo 2^26: the fields come out the same
(R62, derived there from R53 and R58). -/
def Obligations.EarlyReductionChangesNoField : Prop :=
  ∀ (cs : List Char) (n w : Nat), digitsValue? 0 cs = some n → w ≤ 26 →
    let acc : Nat := cs.foldl (fun a c => (10 * a + (c.toNat - 48)) % 2 ^ 26) 0
    pack n w = pack acc w ∧ pack (-n) w = pack ((2 ^ 26 - acc : Int) % 2 ^ 26) w

/-- `WordText` and `TextWord`: 32 characters, the leftmost bit 31; inverse to one another; `TextWord` undefined off its domain
(R56, R57). -/
def Obligations.WordTextIsInverted : Prop :=
  (∀ w : Word, (wordText w).length = 32
      ∧ (∀ i, i < 32 → (wordText w)[i]? = some (if w.getLsbD (31 - i) then '1' else '0'))
      ∧ textWord (wordText w) = some w)
    ∧ (∀ (t : Line) (w : Word), textWord t = some w → wordText w = t)
    ∧ ∀ t : Line, (∃ w, textWord t = some w) ↔ t.length = 32 ∧ ∀ c ∈ t, c = '0' ∨ c = '1'

/-- The integer literals: an optional `-` and one or more decimal digits, read in base 10 without a bound; any other token is
`MalformedOperand` (R58; the grammar is the spec's decision D8). -/
def Obligations.IntegerLiteralsAreBaseTen : Prop :=
  (∀ (tok : Token) (v : Int), intOperand tok = .ok v ↔
      ∃ ds : List Nat, ds ≠ [] ∧ (∀ d ∈ ds, d < 10) ∧
        ((tok = ds.map digitChar ∧ v = ((Nat.ofDigits 10 ds.reverse : Nat) : Int))
          ∨ (tok = '-' :: ds.map digitChar ∧ v = -((Nat.ofDigits 10 ds.reverse : Nat) : Int))))
    ∧ ∀ (tok : Token) (k : ErrorKind), intOperand tok = .error k → k = .malformedOperand

/-- A printed numeral reads back as its integer, and a literal is printed as it was written exactly when it has no leading zero
(but for the digit `0` alone) and is not `-0` (R61, derived there from R58 and R59). -/
def Obligations.NumeralsRoundTrip : Prop :=
  (∀ v : Int, intOperand (decText v) = .ok v)
    ∧ ∀ (tok : Token) (v : Int), intOperand tok = .ok v →
        (decText v = tok ↔ tok ≠ "-0".toList ∧ ∀ ds, tok = '0' :: ds ∨ tok = '-' :: '0' :: ds → ds = [])

/-- `dec` prints the shortest numeral: `0` for 0, the digits without a leading zero for a positive number, `-` and the digits of
`-v` for a negative one (R59; the form is the spec's decision D14). -/
def Obligations.DecimalTextIsShortest : Prop :=
  decText 0 = "0".toList
    ∧ (∀ n : Nat, 0 < n → ∃ ds : List Nat, decText n = ds.map digitChar ∧ (∀ d ∈ ds, d < 10)
        ∧ ds.head? ≠ some 0 ∧ ds ≠ [] ∧ Nat.ofDigits 10 ds.reverse = n)
    ∧ ∀ n : Nat, 0 < n → decText (-n) = '-' :: decText n

/-! ### Tables read both ways (`10_state.md`) -/

/-- The Register Table's two directions are exact inverses (R11), and any other name is `UnknownRegister` (R12; that names are
compared exactly is the spec's decision D7, log entry 9); for admissible tables. -/
def Obligations.RegisterTableIsABijection : Prop :=
  ∀ T : Tables, T.wf = true →
    (∀ i : RegIx, regIndex T (regName T i) = .ok i)
      ∧ (∀ (n : Line) (i : RegIx), regIndex T n = .ok i → regName T i = n)
      ∧ (∀ n : Line, (∀ i, regName T i ≠ n) → regIndex T n = .error .unknownRegister)
      ∧ ∀ i j : RegIx, regName T i = regName T j → i = j

/-- Each Format Table is a bijection between its members and their codes, the opcode sets are disjoint and hold no 0, every
mnemonic is found by its own spelling and by no other, and `nop` is in no table (R14, R132), for admissible tables. The exact,
case-sensitive comparison is the spec's decision D7. -/
def Obligations.FormatTablesAreBijections : Prop :=
  ∀ T : Tables, T.wf = true →
    (∀ op c, T.rTable.find? c = some op ↔ T.rTable.code op = c)
      ∧ (∀ op c, T.iTable.find? c = some op ↔ T.iTable.code op = c)
      ∧ (∀ op c, T.jTable.find? c = some op ↔ T.jTable.code op = c)
      ∧ (∀ a b, T.iTable.code a ≠ T.jTable.code b) ∧ (∀ a, T.iTable.code a ≠ 0#6) ∧ (∀ b, T.jTable.code b ≠ 0#6)
      ∧ (∀ m tok, Mnemonic.ofToken? tok = some m ↔ m.name = tok)
      ∧ Mnemonic.ofToken? "nop".toList = none

/-! ### The Encoder's front end (`41_encoder_frontend.md`) -/

/-- Comment removal keeps what stands before the first `#`; trimming takes the whitespace of `WS` off both ends and nothing else
(R64, R65; marker and set are the spec's decisions D3, D4). -/
def Obligations.CommentAndOuterWhitespaceAreRemoved : Prop :=
  (∀ l : Line, ∃ rest, l = stripComment l ++ rest ∧ '#' ∉ stripComment l ∧ (rest = [] ∨ rest.head? = some '#'))
    ∧ ∀ s : Line, ∃ a b, s = a ++ trim s ++ b
        ∧ (∀ c ∈ a ++ b, c ∈ ['\t', '\n', '\x0b', '\x0c', '\r', ' '])
        ∧ (∀ c, (trim s).head? = some c ∨ (trim s).getLast? = some c → c ∉ ['\t', '\n', '\x0b', '\x0c', '\r', ' '])

/-- A line gives `Skip` exactly when, after comment removal and trimming, it is empty, begins with `.` or ends with `:`
(R65 to R67; where the tests are applied is the spec's decision D5). -/
def Obligations.SkippedLinesAreExactlyThree : Prop :=
  ∀ (T : Tables) (l : Line), encodeLine T l = .skip ↔
    trim (stripComment l) = [] ∨ (trim (stripComment l)).head? = some '.' ∨ (trim (stripComment l)).getLast? = some ':'

/-- The whole line `nop` gives the zero word whatever the tables hold; a line whose first of several tokens is `nop`, or that
spells it in any other way, is no instruction (R68). -/
def Obligations.NopLineGivesTheZeroWord : Prop :=
  (∀ (T : Tables) (l : Line), trim (stripComment l) = "nop".toList → encodeLine T l = .ok (.word 0#32))
    ∧ ∀ (T : Tables) (l : Line) (tok : Token) (ops : List Token), encodeLine T l ≠ .skip →
        trim (stripComment l) ≠ "nop".toList → tokens (trim (stripComment l)) = tok :: ops →
        tok ∈ ["nop".toList, "NOP".toList, "Nop".toList] → encodeLine T l = .error .unknownMnemonic

/-- Tokenisation: every comma, parenthesis and whitespace character separates, empty pieces are dropped, and a run without a
delimiter is one token (R69; that the delimiters are interchangeable is the spec's decision D6). -/
def Obligations.TokensAreSplitAtDelimiters : Prop :=
  (∀ (a b : Line) (d : Char), d ∈ [',', '(', ')', '\t', '\n', '\x0b', '\x0c', '\r', ' '] →
      tokens (a ++ d :: b) = tokens a ++ tokens b)
    ∧ (∀ a : Line, a ≠ [] → (∀ c ∈ a, c ∉ [',', '(', ')', '\t', '\n', '\x0b', '\x0c', '\r', ' ']) → tokens a = [a])
    ∧ tokens [] = []

/-- `EncodeLine`, step by step (R63). -/
def Obligations.EncodeLineFollowsItsSteps : Prop :=
  ∀ (T : Tables) (line : Line), encodeLine T line =
    (let s := trim (stripComment line)
     if s = [] then .skip
     else if s.head? = some '.' then .skip
     else if s.getLast? = some ':' then .skip
     else if s = "nop".toList then .ok (.word 0x00000000#32)
     else
       match tokens s with
       | [] => .error .unknownMnemonic
       | tok :: ops =>
         match Mnemonic.ofToken? tok with
         | none => .error .unknownMnemonic
         | some m =>
           match encodeOperation T m ops with
           | .ok w => .ok (.word w)
           | .error k => .error k)

/-- The operand count is checked before any operand is looked at (R72; that order is the spec's decision D9). -/
def Obligations.OperandCountIsCheckedFirst : Prop :=
  ∀ (T : Tables) (m : Mnemonic) (ops : List Token),
    ops.length ≠ (if m ∈ [.r .jr, .j .j, .j .jal] then 1 else if m = .i .lui then 2 else 3) →
      encodeOperation T m ops = .error .malformedOperand

/-- Register operands: without the sigil `MalformedOperand`, an unknown name behind it `UnknownRegister`, else the index
(R73), for admissible tables. -/
def Obligations.RegisterOperandsNeedSigilAndName : Prop :=
  ∀ T : Tables, T.wf = true →
    (∀ i : RegIx, regOperand T ('$' :: regName T i) = .ok i)
      ∧ (∀ tok : Token, tok.head? ≠ some '$' → regOperand T tok = .error .malformedOperand)
      ∧ (∀ n : Line, (∀ i, regName T i ≠ n) → regOperand T ('$' :: n) = .error .unknownRegister)
      ∧ ∀ (tok : Token) (i : RegIx), regOperand T tok = .ok i → tok = '$' :: regName T i

/-- What the schema of a mnemonic expects at each operand, in text order (R51): `true` a register, `false` an integer. -/
def Sys2Proof.operandSchema : Mnemonic → List Bool
  | .r .add | .r .sub | .r .and | .r .or | .r .xor | .r .slt => [true, true, true]
  | .r .sll | .r .srl => [true, true, false]
  | .r .jr => [true]
  | .i .addi | .i .slti | .i .beq | .i .bne => [true, true, false]
  | .i .lui => [true, false]
  | .i .lw | .i .sw => [true, false, true]
  | .j .j | .j .jal => [false]

/-- The error of one operand token, if it has one: `true` a register is expected, `false` an integer (R73, R74). -/
def Sys2Proof.operandError (T : Tables) (register : Bool) (tok : Token) : Option ErrorKind :=
  if register then
    match regOperand T tok with
    | .ok _ => none
    | .error k => some k
  else
    match intOperand tok with
    | .ok _ => none
    | .error k => some k

/-- With the right number of operands, the error reported is that of the first failing token from the left, and there is none
exactly when no token fails (R74, R75; the order is the spec's decision D9). -/
def Obligations.FirstFailingOperandIsReported : Prop :=
  ∀ (T : Tables) (m : Mnemonic) (ops : List Token), ops.length = (operandSchema m).length →
    (∀ k, encodeOperation T m ops = .error k ↔
      (List.zipWith (operandError T) (operandSchema m) ops).findSome? id = some k)

/-- Each agent returns only its own error kinds (R78, R104, R114). -/
def Obligations.EachAgentHasItsOwnErrors : Prop :=
  (∀ (T : Tables) (l : Line) (k : ErrorKind), encodeLine T l = .error k →
      k = .unknownMnemonic ∨ k = .malformedOperand ∨ k = .unknownRegister)
    ∧ (∀ (T : Tables) (w : Word) (k : ErrorKind), decodeWord T w = .error k → k = .unknownOpcode ∨ k = .unknownFunct)
    ∧ (∀ (T : Tables) (l : Line) (k : ErrorKind), decodeLine T l = .ok (.error k) → k = .unknownOpcode ∨ k = .unknownFunct)

/-- Every word the Encoder produces is canonical and the Decoder accepts it (R78, derived there), for admissible tables. -/
def Obligations.EncoderProducesCanonicalWords : Prop :=
  ∀ (T : Tables) (l : Line) (p : Payload), T.wf = true → encodeLine T l = .ok p →
    ∃ w t, p = .word w ∧ canonWith T w = some w ∧ decodeWord T w = .ok (.text t)

/-! ### The instructions, both ways (`42_r_format.md`, `43_i_format.md`, `44_j_format.md`) -/

/-- `nop` (R80): the whole line `nop` gives the zero word; every word with opcode, funct, rt, rd and shamt 0 decodes to it,
whatever rs is; a `nop` with anything after it is no instruction; and `sll $zero, $zero, 0` is the zero word too; for admissible
tables. -/
def Obligations.NopTranslatesBothWays : Prop :=
  ∀ T : Tables, T.wf = true →
    (∀ l : Line, trim (stripComment l) = "nop".toList → encodeLine T l = .ok (.word 0x00000000#32))
      ∧ (∀ W : Word, W.extractLsb 31 26 = 0#6 → W.extractLsb 5 0 = 0#6 → W.extractLsb 20 16 = 0#5 →
          W.extractLsb 15 11 = 0#5 → W.extractLsb 10 6 = 0#5 → decodeWord T W = .ok (.text "nop".toList))
      ∧ (∀ (l : Line) (ops : List Token), encodeLine T l ≠ .skip → trim (stripComment l) ≠ "nop".toList →
          tokens (trim (stripComment l)) = "nop".toList :: ops → encodeLine T l = .error .unknownMnemonic)
      ∧ encodeLine T "sll $zero, $zero, 0".toList = .ok (.word 0x00000000#32)

/-- `add` (R81), for admissible tables. -/
def Obligations.AddTranslatesBothWays : Prop :=
  ∀ T : Tables, T.wf = true →
    (∀ ops : List Token, encodeOperation T (.r .add) ops =
      match ops with
      | [a, b, c] => do
        let rd ← regOperand T a
        let rs ← regOperand T b
        let rt ← regOperand T c
        return 0#6 ++ rs ++ rt ++ rd ++ 0#5 ++ 32#6
      | _ => .error .malformedOperand)
    ∧ ∀ W : Word, W.extractLsb 31 26 = 0#6 → W.extractLsb 5 0 = 32#6 →
        decodeWord T W = .ok (.text ("add $".toList ++ regName T (W.extractLsb 15 11)
          ++ ", $".toList ++ regName T (W.extractLsb 25 21) ++ ", $".toList ++ regName T (W.extractLsb 20 16)))

/-- `sub and or xor slt`, with the funct codes their table holds, for admissible tables. That these are 34, 36, 37, 38, 42 is the
spec's decision D11, stated by ResetHoldsTheSpecTables. -/
def Obligations.ThreeRegisterInstructionsTranslateBothWays : Prop :=
  ∀ T : Tables, T.wf = true → ∀ p ∈ [(ROp.sub, "sub"), (.and, "and"), (.or, "or"), (.xor, "xor"), (.slt, "slt")],
    (∀ ops : List Token, encodeOperation T (.r p.1) ops =
      match ops with
      | [a, b, c] => do
        let rd ← regOperand T a
        let rs ← regOperand T b
        let rt ← regOperand T c
        return 0#6 ++ rs ++ rt ++ rd ++ 0#5 ++ T.rTable.code p.1
      | _ => .error .malformedOperand)
    ∧ ∀ W : Word, W.extractLsb 31 26 = 0#6 → W.extractLsb 5 0 = T.rTable.code p.1 →
        decodeWord T W = .ok (.text (p.2.toList ++ " $".toList ++ regName T (W.extractLsb 15 11)
          ++ ", $".toList ++ regName T (W.extractLsb 25 21) ++ ", $".toList ++ regName T (W.extractLsb 20 16)))

/-- `sll` (R87): the shift amount is taken modulo 32 without complaint and printed unsigned; a word of `nop` is not one of `sll`;
for admissible tables. -/
def Obligations.SllTranslatesBothWays : Prop :=
  ∀ T : Tables, T.wf = true →
    (∀ ops : List Token, encodeOperation T (.r .sll) ops =
      match ops with
      | [a, b, c] => do
        let rd ← regOperand T a
        let rt ← regOperand T b
        let v ← intOperand c
        return 0#6 ++ 0#5 ++ rt ++ rd ++ pack v 5 ++ 0#6
      | _ => .error .malformedOperand)
    ∧ ∀ W : Word, W.extractLsb 31 26 = 0#6 → W.extractLsb 5 0 = 0#6 →
        (W.extractLsb 20 16 ≠ 0#5 ∨ W.extractLsb 15 11 ≠ 0#5 ∨ W.extractLsb 10 6 ≠ 0#5) →
        decodeWord T W = .ok (.text ("sll $".toList ++ regName T (W.extractLsb 15 11)
          ++ ", $".toList ++ regName T (W.extractLsb 20 16) ++ ", ".toList ++ decText (unpackUnsigned (W.extractLsb 10 6))))

/-- `srl`, with the funct its table holds, for admissible tables: no word of it is a `nop`. That the funct is 2 is the spec's
decision D11, stated by ResetHoldsTheSpecTables. -/
def Obligations.SrlTranslatesBothWays : Prop :=
  ∀ T : Tables, T.wf = true →
    (∀ ops : List Token, encodeOperation T (.r .srl) ops =
      match ops with
      | [a, b, c] => do
        let rd ← regOperand T a
        let rt ← regOperand T b
        let v ← intOperand c
        return 0#6 ++ 0#5 ++ rt ++ rd ++ pack v 5 ++ T.rTable.srl
      | _ => .error .malformedOperand)
    ∧ ∀ W : Word, W.extractLsb 31 26 = 0#6 → W.extractLsb 5 0 = T.rTable.srl →
        decodeWord T W = .ok (.text ("srl $".toList ++ regName T (W.extractLsb 15 11)
          ++ ", $".toList ++ regName T (W.extractLsb 20 16) ++ ", ".toList ++ decText (unpackUnsigned (W.extractLsb 10 6))))

/-- `jr`, with the funct its table holds, for admissible tables; rt, rd and shamt are not looked at. That the funct is 8 is the
spec's decision D11, stated by ResetHoldsTheSpecTables. -/
def Obligations.JrTranslatesBothWays : Prop :=
  ∀ T : Tables, T.wf = true →
    (∀ ops : List Token, encodeOperation T (.r .jr) ops =
      match ops with
      | [a] => do
        let rs ← regOperand T a
        return 0#6 ++ rs ++ 0#5 ++ 0#5 ++ 0#5 ++ T.rTable.jr
      | _ => .error .malformedOperand)
    ∧ ∀ W : Word, W.extractLsb 31 26 = 0#6 → W.extractLsb 5 0 = T.rTable.jr →
        decodeWord T W = .ok (.text ("jr $".toList ++ regName T (W.extractLsb 25 21)))

/-- `addi` (R90): the literal is packed into 16 bits without a check, the field printed sign-extended; for admissible tables. -/
def Obligations.AddiTranslatesBothWays : Prop :=
  ∀ T : Tables, T.wf = true →
    (∀ ops : List Token, encodeOperation T (.i .addi) ops =
      match ops with
      | [a, b, c] => do
        let rt ← regOperand T a
        let rs ← regOperand T b
        let v ← intOperand c
        return 8#6 ++ rs ++ rt ++ pack v 16
      | _ => .error .malformedOperand)
    ∧ ∀ W : Word, W.extractLsb 31 26 = 8#6 →
        decodeWord T W = .ok (.text ("addi $".toList ++ regName T (W.extractLsb 20 16)
          ++ ", $".toList ++ regName T (W.extractLsb 25 21) ++ ", ".toList ++ decText (unpackSigned (W.extractLsb 15 0))))

/-- `slti`, with the opcode its table holds, for admissible tables. That it is 10 is the spec's decision D11, stated by
ResetHoldsTheSpecTables. -/
def Obligations.SltiTranslatesBothWays : Prop :=
  ∀ T : Tables, T.wf = true →
    (∀ ops : List Token, encodeOperation T (.i .slti) ops =
      match ops with
      | [a, b, c] => do
        let rt ← regOperand T a
        let rs ← regOperand T b
        let v ← intOperand c
        return T.iTable.slti ++ rs ++ rt ++ pack v 16
      | _ => .error .malformedOperand)
    ∧ ∀ W : Word, W.extractLsb 31 26 = T.iTable.slti →
        decodeWord T W = .ok (.text ("slti $".toList ++ regName T (W.extractLsb 20 16)
          ++ ", $".toList ++ regName T (W.extractLsb 25 21) ++ ", ".toList ++ decText (unpackSigned (W.extractLsb 15 0))))

/-- `beq` and `bne`, with the opcodes their table holds, for admissible tables: rs stands first in the text, and the literal is
placed in the field as written. That the opcodes are 4 and 5 is the spec's decision D11, stated by ResetHoldsTheSpecTables. -/
def Obligations.BranchesTranslateBothWays : Prop :=
  ∀ T : Tables, T.wf = true → ∀ p ∈ [(IOp.beq, "beq"), (.bne, "bne")],
    (∀ ops : List Token, encodeOperation T (.i p.1) ops =
      match ops with
      | [a, b, c] => do
        let rs ← regOperand T a
        let rt ← regOperand T b
        let v ← intOperand c
        return T.iTable.code p.1 ++ rs ++ rt ++ pack v 16
      | _ => .error .malformedOperand)
    ∧ ∀ W : Word, W.extractLsb 31 26 = T.iTable.code p.1 →
        decodeWord T W = .ok (.text (p.2.toList ++ " $".toList ++ regName T (W.extractLsb 25 21)
          ++ ", $".toList ++ regName T (W.extractLsb 20 16) ++ ", ".toList ++ decText (unpackSigned (W.extractLsb 15 0))))

/-- `lui`, with the opcode its table holds, for admissible tables: rs is written 0 and not looked at, and the immediate is
printed sign-extended like every other. That the opcode is 15 is the spec's decision D11, stated by ResetHoldsTheSpecTables. -/
def Obligations.LuiTranslatesBothWays : Prop :=
  ∀ T : Tables, T.wf = true →
    (∀ ops : List Token, encodeOperation T (.i .lui) ops =
      match ops with
      | [a, b] => do
        let rt ← regOperand T a
        let v ← intOperand b
        return T.iTable.lui ++ 0#5 ++ rt ++ pack v 16
      | _ => .error .malformedOperand)
    ∧ ∀ W : Word, W.extractLsb 31 26 = T.iTable.lui →
        decodeWord T W = .ok (.text ("lui $".toList ++ regName T (W.extractLsb 20 16)
          ++ ", ".toList ++ decText (unpackSigned (W.extractLsb 15 0))))

/-- `lw` and `sw`, with the opcodes their table holds, for admissible tables: the tokens are register, offset, register, and the
text is `m $rt, imm($rs)`. That the opcodes are 35 and 43 is the spec's decision D11, stated by ResetHoldsTheSpecTables. -/
def Obligations.LoadAndStoreTranslateBothWays : Prop :=
  ∀ T : Tables, T.wf = true → ∀ p ∈ [(IOp.lw, "lw"), (.sw, "sw")],
    (∀ ops : List Token, encodeOperation T (.i p.1) ops =
      match ops with
      | [a, b, c] => do
        let rt ← regOperand T a
        let v ← intOperand b
        let rs ← regOperand T c
        return T.iTable.code p.1 ++ rs ++ rt ++ pack v 16
      | _ => .error .malformedOperand)
    ∧ ∀ W : Word, W.extractLsb 31 26 = T.iTable.code p.1 →
        decodeWord T W = .ok (.text (p.2.toList ++ " $".toList ++ regName T (W.extractLsb 20 16) ++ ", ".toList
          ++ decText (unpackSigned (W.extractLsb 15 0)) ++ "($".toList ++ regName T (W.extractLsb 25 21) ++ ")".toList))

/-- `j` (R97): the literal is packed into 26 bits with wraparound, the field printed unsigned, and every word of it comes back
from its text as itself; for admissible tables. -/
def Obligations.JumpTranslatesBothWays : Prop :=
  ∀ T : Tables, T.wf = true →
    (∀ ops : List Token, encodeOperation T (.j .j) ops =
      match ops with
      | [a] => do
        let v ← intOperand a
        return 2#6 ++ pack v 26
      | _ => .error .malformedOperand)
    ∧ ∀ W : Word, W.extractLsb 31 26 = 2#6 →
        decodeWord T W = .ok (.text ("j ".toList ++ decText (unpackUnsigned (W.extractLsb 25 0))))
          ∧ encodeLine T ("j ".toList ++ decText (unpackUnsigned (W.extractLsb 25 0))) = .ok (.word W)

/-- `jal`, with the opcode its table holds, for admissible tables. That it is 3 is the spec's decision D11, stated by
ResetHoldsTheSpecTables. -/
def Obligations.JumpAndLinkTranslatesBothWays : Prop :=
  ∀ T : Tables, T.wf = true →
    (∀ ops : List Token, encodeOperation T (.j .jal) ops =
      match ops with
      | [a] => do
        let v ← intOperand a
        return T.jTable.jal ++ pack v 26
      | _ => .error .malformedOperand)
    ∧ ∀ W : Word, W.extractLsb 31 26 = T.jTable.jal →
        decodeWord T W = .ok (.text ("jal ".toList ++ decText (unpackUnsigned (W.extractLsb 25 0))))
          ∧ encodeLine T ("jal ".toList ++ decText (unpackUnsigned (W.extractLsb 25 0))) = .ok (.word W)

/-! ### The instructions complete, and what they leave alone -/

/-- The R-format instructions complete: in a state with a line of either agent in front, the meaning answers the next state in
which that line is answered by the instruction's word or its text, and nothing else has changed. The fields the instruction does
not use are 0 in the word, whatever the tables hold. -/
def Obligations.RFormatInstructionsComplete : Prop :=
  ∀ (s : State) (l : Line) (rest : List Request) (rd rs rt : RegIx) (shamt : Shamt),
    let T := s.tables
    let three : Line → Line := fun m => m ++ " $".toList ++ regName T rd ++ ", $".toList ++ regName T rs ++ ", $".toList ++ regName T rt
    let shift : Line → Line := fun m =>
      m ++ " $".toList ++ regName T rd ++ ", $".toList ++ regName T rt ++ ", ".toList ++ decText (unpackUnsigned shamt)
    let word : Word → Host.Outcome State Fault Refusal := fun w => .next ⟨T, rest, s.output ++ [.ok (.word w)]⟩
    let text : Line → Host.Outcome State Fault Refusal := fun t => .next ⟨T, rest, s.output ++ [.ok (.text t)]⟩
    (s.pending = ⟨.encoder, l⟩ :: rest →
      exec .nop s = word 0#32
        ∧ exec (.add rd rs rt) s = word (0#6 ++ rs ++ rt ++ rd ++ 0#5 ++ T.rTable.add)
        ∧ exec (.sub rd rs rt) s = word (0#6 ++ rs ++ rt ++ rd ++ 0#5 ++ T.rTable.sub)
        ∧ exec (.and rd rs rt) s = word (0#6 ++ rs ++ rt ++ rd ++ 0#5 ++ T.rTable.and)
        ∧ exec (.or rd rs rt) s = word (0#6 ++ rs ++ rt ++ rd ++ 0#5 ++ T.rTable.or)
        ∧ exec (.xor rd rs rt) s = word (0#6 ++ rs ++ rt ++ rd ++ 0#5 ++ T.rTable.xor)
        ∧ exec (.slt rd rs rt) s = word (0#6 ++ rs ++ rt ++ rd ++ 0#5 ++ T.rTable.slt)
        ∧ exec (.sll rd rt shamt) s = word (0#6 ++ 0#5 ++ rt ++ rd ++ shamt ++ T.rTable.sll)
        ∧ exec (.srl rd rt shamt) s = word (0#6 ++ 0#5 ++ rt ++ rd ++ shamt ++ T.rTable.srl)
        ∧ exec (.jr rs) s = word (0#6 ++ rs ++ 0#5 ++ 0#5 ++ 0#5 ++ T.rTable.jr))
    ∧ (s.pending = ⟨.decoder, l⟩ :: rest →
      exec .nop s = text "nop".toList
        ∧ exec (.add rd rs rt) s = text (three "add".toList)
        ∧ exec (.sub rd rs rt) s = text (three "sub".toList)
        ∧ exec (.and rd rs rt) s = text (three "and".toList)
        ∧ exec (.or rd rs rt) s = text (three "or".toList)
        ∧ exec (.xor rd rs rt) s = text (three "xor".toList)
        ∧ exec (.slt rd rs rt) s = text (three "slt".toList)
        ∧ exec (.sll rd rt shamt) s = text (shift "sll".toList)
        ∧ exec (.srl rd rt shamt) s = text (shift "srl".toList)
        ∧ exec (.jr rs) s = text ("jr $".toList ++ regName T rs))

/-- The I-format instructions complete, as RFormatInstructionsComplete says for the R format. -/
def Obligations.IFormatInstructionsComplete : Prop :=
  ∀ (s : State) (l : Line) (rest : List Request) (rs rt : RegIx) (imm : Imm),
    let T := s.tables
    let two : Line → RegIx → RegIx → Line := fun m a b =>
      m ++ " $".toList ++ regName T a ++ ", $".toList ++ regName T b ++ ", ".toList ++ decText (unpackSigned imm)
    let based : Line → Line := fun m =>
      m ++ " $".toList ++ regName T rt ++ ", ".toList ++ decText (unpackSigned imm) ++ "($".toList ++ regName T rs ++ ")".toList
    let word : Word → Host.Outcome State Fault Refusal := fun w => .next ⟨T, rest, s.output ++ [.ok (.word w)]⟩
    let text : Line → Host.Outcome State Fault Refusal := fun t => .next ⟨T, rest, s.output ++ [.ok (.text t)]⟩
    (s.pending = ⟨.encoder, l⟩ :: rest →
      exec (.addi rt rs imm) s = word (T.iTable.addi ++ rs ++ rt ++ imm)
        ∧ exec (.slti rt rs imm) s = word (T.iTable.slti ++ rs ++ rt ++ imm)
        ∧ exec (.lui rt imm) s = word (T.iTable.lui ++ 0#5 ++ rt ++ imm)
        ∧ exec (.lw rt imm rs) s = word (T.iTable.lw ++ rs ++ rt ++ imm)
        ∧ exec (.sw rt imm rs) s = word (T.iTable.sw ++ rs ++ rt ++ imm)
        ∧ exec (.beq rs rt imm) s = word (T.iTable.beq ++ rs ++ rt ++ imm)
        ∧ exec (.bne rs rt imm) s = word (T.iTable.bne ++ rs ++ rt ++ imm))
    ∧ (s.pending = ⟨.decoder, l⟩ :: rest →
      exec (.addi rt rs imm) s = text (two "addi".toList rt rs)
        ∧ exec (.slti rt rs imm) s = text (two "slti".toList rt rs)
        ∧ exec (.lui rt imm) s = text ("lui $".toList ++ regName T rt ++ ", ".toList ++ decText (unpackSigned imm))
        ∧ exec (.lw rt imm rs) s = text (based "lw".toList)
        ∧ exec (.sw rt imm rs) s = text (based "sw".toList)
        ∧ exec (.beq rs rt imm) s = text (two "beq".toList rs rt)
        ∧ exec (.bne rs rt imm) s = text (two "bne".toList rs rt))

/-- The J-format instructions complete, as RFormatInstructionsComplete says for the R format. -/
def Obligations.JFormatInstructionsComplete : Prop :=
  ∀ (s : State) (l : Line) (rest : List Request) (addr : Addr),
    (s.pending = ⟨.encoder, l⟩ :: rest →
      exec (.j addr) s = .next ⟨s.tables, rest, s.output ++ [.ok (.word (s.tables.jTable.j ++ addr))]⟩
        ∧ exec (.jal addr) s = .next ⟨s.tables, rest, s.output ++ [.ok (.word (s.tables.jTable.jal ++ addr))]⟩)
    ∧ (s.pending = ⟨.decoder, l⟩ :: rest →
      exec (.j addr) s = .next ⟨s.tables, rest, s.output ++ [.ok (.text ("j ".toList ++ decText (unpackUnsigned addr)))]⟩
        ∧ exec (.jal addr) s = .next ⟨s.tables, rest, s.output ++ [.ok (.text ("jal ".toList ++ decText (unpackUnsigned addr)))]⟩)

/-- The frame of every instruction: it always answers a next state, in which the tables are unchanged, the line in front is
answered and the others are as they were, the earlier results are unchanged, and one `Ok` result follows them (none when no line
was presented: log entry 6). -/
def Obligations.InstructionsChangeOnlyTheirResult : Prop :=
  ∀ (i : Instr) (s : State), ∃ t, exec i s = .next t ∧ t.tables = s.tables ∧ t.pending = s.pending.tail
    ∧ (s.pending = [] → t.output = s.output)
    ∧ (s.pending ≠ [] → ∃ p, t.output = s.output ++ [.ok p])

/-! ### The Decoder (`45_decoder.md`) -/

/-- `DecodeLine` (R99, R100): after trimming, the empty line and the sentinel are skipped, 32 binary digits are decoded as their
word, and any other line is refused. Trimming is the spec's decision D22, the refusal D13; the sentinel is whatever admissible
line the implementation chose (log entry 3). -/
def Obligations.DecodeLineFollowsItsInputTest : Prop :=
  ∀ (T : Tables) (l : Line),
    (trim l = [] → decodeLine T l = .ok .skip)
      ∧ (trim l = sentinelLine → decodeLine T l = .ok .skip)
      ∧ (∀ w : Word, trim l = wordText w → decodeLine T l = .ok (decodeWord T w))
      ∧ (trim l ≠ [] → trim l ≠ sentinelLine → (∀ w, trim l ≠ wordText w) → decodeLine T l = .error .notAWord)

/-- `SENTINEL_LINE` meets its constraints: not empty, no outer whitespace, not 32 binary digits (R5, R100; D12, log entry 3). -/
def Obligations.SentinelMeetsItsConstraints : Prop :=
  sentinelLine ≠ [] ∧ trim sentinelLine = sentinelLine ∧ ∀ w, sentinelLine ≠ wordText w

/-- The Decoder's dispatch, test by test as R102 writes it, on the numbers of the spec's tables (D10, D11). -/
def Obligations.DispatchFollowsItsTests : Prop :=
  ∀ W : Word,
    let opcode := (W.extractLsb 31 26).toNat
    let funct := (W.extractLsb 5 0).toNat
    let rd := W.extractLsb 15 11
    let rs := W.extractLsb 25 21
    let rt := W.extractLsb 20 16
    let shamt := W.extractLsb 10 6
    let imm := (W.extractLsb 15 0).toInt
    let addr : Int := (W.extractLsb 25 0).toNat
    let r : BitVec 5 → Line := fun i => "$".toList ++ regName Tables.standard i
    let three : String → Result := fun m => .ok (.text (m.toList ++ " ".toList ++ r rd ++ ", ".toList ++ r rs ++ ", ".toList ++ r rt))
    let shift : String → Result := fun m => .ok (.text (m.toList ++ " ".toList ++ r rd ++ ", ".toList ++ r rt ++ ", ".toList ++ decText shamt.toNat))
    let based : String → Result := fun m => .ok (.text (m.toList ++ " ".toList ++ r rt ++ ", ".toList ++ decText imm ++ "(".toList ++ r rs ++ ")".toList))
    let branch : String → Result := fun m => .ok (.text (m.toList ++ " ".toList ++ r rs ++ ", ".toList ++ r rt ++ ", ".toList ++ decText imm))
    let immediate : String → Result := fun m => .ok (.text (m.toList ++ " ".toList ++ r rt ++ ", ".toList ++ r rs ++ ", ".toList ++ decText imm))
    decodeWord Tables.standard W =
      if opcode = 0 then
        if funct = 0 then
          if rd = 0#5 ∧ rt = 0#5 ∧ shamt = 0#5 then .ok (.text "nop".toList) else shift "sll"
        else if funct = 2 then shift "srl"
        else if funct = 8 then .ok (.text ("jr ".toList ++ r rs))
        else if funct = 32 then three "add"
        else if funct = 34 then three "sub"
        else if funct = 36 then three "and"
        else if funct = 37 then three "or"
        else if funct = 38 then three "xor"
        else if funct = 42 then three "slt"
        else .error .unknownFunct
      else if opcode = 15 then .ok (.text ("lui ".toList ++ r rt ++ ", ".toList ++ decText imm))
      else if opcode = 35 then based "lw"
      else if opcode = 43 then based "sw"
      else if opcode = 4 then branch "beq"
      else if opcode = 5 then branch "bne"
      else if opcode = 8 then immediate "addi"
      else if opcode = 10 then immediate "slti"
      else if opcode = 2 then .ok (.text ("j ".toList ++ decText addr))
      else if opcode = 3 then .ok (.text ("jal ".toList ++ decText addr))
      else .error .unknownOpcode

/-- A word and the same word with the fields its instruction does not use changed at will decode alike, and without an error
(R103): shamt for the three-register instructions; rs for `sll`, `srl`, `lui` and `nop`; rt, rd and shamt for `jr`; for admissible
tables. -/
def Obligations.UnusedFieldsAreNotLookedAt : Prop :=
  ∀ (T : Tables) (W : Word) (i : Instr), T.wf = true → decodeWith T W = .ok i →
    let unused : Word :=
      match i with
      | .add _ _ _ | .sub _ _ _ | .and _ _ _ | .or _ _ _ | .xor _ _ _ | .slt _ _ _ => 0x000007C0#32
      | .sll _ _ _ | .srl _ _ _ | .lui _ _ | .nop => 0x03E00000#32
      | .jr _ => 0x001FFFC0#32
      | .addi _ _ _ | .slti _ _ _ | .lw _ _ _ | .sw _ _ _ | .beq _ _ _ | .bne _ _ _ | .j _ | .jal _ => 0#32
    ∀ W' : Word, W' &&& ~~~unused = W &&& ~~~unused → decodeWith T W' = .ok i

/-- The Decoder's errors, on the numbers of the spec's tables (R47, R104; D11): exactly these opcodes and functs are unknown. -/
def Obligations.UnknownCodesAreExactlyTheUnassigned : Prop :=
  ∀ W : Word,
    (decodeWord Tables.standard W = .error .unknownOpcode ↔
        (W.extractLsb 31 26).toNat ∉ [0, 2, 3, 4, 5, 8, 10, 15, 35, 43])
      ∧ (decodeWord Tables.standard W = .error .unknownFunct ↔
        (W.extractLsb 31 26).toNat = 0 ∧ (W.extractLsb 5 0).toNat ∉ [0, 2, 8, 32, 34, 36, 37, 38, 42])

/-- How many words are unknown opcodes, unknown functs and legal (R47, R112, derived there). -/
def Obligations.WordCounts : Prop :=
  Nat.card {W : Word // decodeWord Tables.standard W = .error .unknownOpcode} = 54 * 2 ^ 26
    ∧ Nat.card {W : Word // decodeWord Tables.standard W = .error .unknownFunct} = 55 * 2 ^ 20
    ∧ Nat.card {W : Word // ∃ t, decodeWord Tables.standard W = .ok (.text t)} = 9 * 2 ^ 26 + 9 * 2 ^ 20
    ∧ Nat.card {W : Word // decodeWord Tables.standard W = .ok (.text "nop".toList)} = 32

/-! ### Round trips -/

/-- Decoding an encoded well-formed instruction gives it back, with every operand at every value, for admissible tables. -/
def Obligations.DecodeInvertsEncode : Prop :=
  ∀ (T : Tables) (i : Instr), T.wf = true → i.wellFormed = true → decodeWith T (encodeWith T i) = .ok i

/-- Word to text to word (R110, derived there; `90_conflicts.md` C1): the text of any word that decodes without error is read
back as the canonical word, so as the word itself exactly when that is canonical. -/
def Obligations.DecodedTextReencodesToTheCanonicalWord : Prop :=
  ∀ (W : Word) (t : Line), decodeWord Tables.standard W = .ok (.text t) →
    (∃ W', canonWith Tables.standard W = some W' ∧ encodeLine Tables.standard t = .ok (.word W')
        ∧ decodeWord Tables.standard W' = .ok (.text t))
      ∧ (encodeLine Tables.standard t = .ok (.word W) ↔ canonWith Tables.standard W = some W)

/-- Text to word to text (R111, derived there; C3): a line the Decoder prints comes back as itself, and the line that comes back
for any accepted line is one the Encoder gives the same word. -/
def Obligations.AcceptedLinesComeBackCanonical : Prop :=
  (∀ (L : Line) (W : Word), decodeWord Tables.standard W = .ok (.text L) →
      ∃ W', encodeLine Tables.standard L = .ok (.word W') ∧ decodeWord Tables.standard W' = .ok (.text L))
    ∧ ∀ (L : Line) (W : Word), encodeLine Tables.standard L = .ok (.word W) →
      ∃ L', decodeWord Tables.standard W = .ok (.text L') ∧ encodeLine Tables.standard L' = .ok (.word W)

/-- At reset nothing has been delivered, so what has been delivered is canonical. -/
def Obligations.OutputsCanonicalAtReset : Prop := State.reset.OutputsCanonical

/-- Every step keeps the delivered words and lines canonical (R78, R109, R111): from every state in which they are, whatever is
presented, a next state is one in which they are. -/
def Obligations.OutputsStayCanonical : Prop :=
  ∀ s s' : State, s.OutputsCanonical → step s = .next s' → s'.OutputsCanonical

/-- Seven words, at least one of each format, their bits written out from R35 to R37, are decoded to the instructions they stand
for, and two illegal words are rejected by name. The funct of `jr` (8) and the opcode of `lw` (35) are the spec's decision D11
(PRESUMED, log entry 8). -/
def Obligations.WrittenOutWordsDecode : Prop :=
  decode 0b000000_01001_01010_01000_00000_100000#32 = .ok (.add 8 9 10)
    ∧ decode 0b000000_00000_01001_01000_00100_000000#32 = .ok (.sll 8 9 4)
    ∧ decode 0b000000_11111_00000_00000_00000_001000#32 = .ok (.jr 31)
    ∧ decode 0b001000_00000_01000_0000000000000101#32 = .ok (.addi 8 0 5)
    ∧ decode 0b100011_11101_01000_1111111111111100#32 = .ok (.lw 8 (-4) 29)
    ∧ decode 0b000010_00000000000000000000001010#32 = .ok (.j 10)
    ∧ decode 0b000000_00001_00000_00000_00000_000000#32 = .ok .nop
    ∧ decode 0b111111_00000_00000_00000_00000_000000#32 = .error .unknownOpcode
    ∧ decode 0b000000_00000_00000_00000_00000_000001#32 = .error .unknownFunct
end

