-- ==== Sys2Proof/Laws/Tables.lean ====
section
/-! SUPPORT. The four tables: what admissibility gives, and that each lookup inverts the other (`10_state.md` R11 to R17;
`70_reset_and_hazards.md` R132). -/

namespace Sys2Proof

theorem standard_wf : Tables.standard.wf = true := by decide +kernel

/-- The invariants of R132 and the source's own entries, one by one. -/
theorem wf_iff (T : Tables) : T.wf = true ↔
    T.regNames.toList.Nodup ∧ (ROp.all.map T.rTable.code).Nodup
      ∧ (IOp.all.map T.iTable.code ++ JOp.all.map T.jTable.code).Nodup
      ∧ 0#6 ∉ IOp.all.map T.iTable.code ++ JOp.all.map T.jTable.code
      ∧ (T.rTable.add = 32#6 ∧ T.rTable.sll = 0#6) ∧ (T.iTable.addi = 8#6 ∧ T.jTable.j = 2#6)
      ∧ ∀ i ∈ [0, 8, 9, 10], T.regNames[i]? = regNamesStandard[i]? := by
  simp [Tables.wf, RTable.standard, ITable.standard, JTable.standard, and_assoc]

section Wf
variable {T : Tables} (hT : T.wf = true)
include hT

theorem wf_names : T.regNames.toList.Nodup := ((wf_iff T).1 hT).1
theorem wf_rCodes : (ROp.all.map T.rTable.code).Nodup := ((wf_iff T).1 hT).2.1
theorem wf_ijCodes : (IOp.all.map T.iTable.code ++ JOp.all.map T.jTable.code).Nodup := ((wf_iff T).1 hT).2.2.1
theorem wf_zero_not_ij : 0#6 ∉ IOp.all.map T.iTable.code ++ JOp.all.map T.jTable.code := ((wf_iff T).1 hT).2.2.2.1
theorem wf_add : T.rTable.add = 32#6 := ((wf_iff T).1 hT).2.2.2.2.1.1
theorem wf_sll : T.rTable.sll = 0#6 := ((wf_iff T).1 hT).2.2.2.2.1.2
theorem wf_addi : T.iTable.addi = 8#6 := ((wf_iff T).1 hT).2.2.2.2.2.1.1
theorem wf_j : T.jTable.j = 2#6 := ((wf_iff T).1 hT).2.2.2.2.2.1.2

end Wf

/-! ### Members and spellings -/

theorem mem_rAll (op : ROp) : op ∈ ROp.all := by cases op <;> decide
theorem mem_iAll (op : IOp) : op ∈ IOp.all := by cases op <;> decide
theorem mem_jAll (op : JOp) : op ∈ JOp.all := by cases op <;> decide

theorem mem_mnemonicAll (m : Mnemonic) : m ∈ Mnemonic.all := by
  cases m with
  | r op => simp [Mnemonic.all, mem_rAll op]
  | i op => simp [Mnemonic.all, mem_iAll op]
  | j op => simp [Mnemonic.all, mem_jAll op]

/-- No mnemonic is in two tables, and no two members of a table are spelled alike (R14). -/
theorem mnemonic_spellings_distinct : (Mnemonic.all.map Mnemonic.name).Nodup := by decide

/-- `nop` is in no table (R14). -/
theorem nop_is_no_mnemonic : Mnemonic.ofToken? nopText = none := by decide

/-- In a list whose images are distinct, looking up an image finds its element. -/
theorem find?_of_nodup_map {α β : Type} [BEq β] [LawfulBEq β] (f : α → β) (l : List α)
    (hn : (l.map f).Nodup) (a : α) (ha : a ∈ l) : l.find? (fun x => f x == f a) = some a := by
  induction l with
  | nil => cases ha
  | cons x xs ih =>
    rw [List.map_cons, List.nodup_cons] at hn
    rcases List.mem_cons.1 ha with rfl | h
    · simp
    · have hne : f x ≠ f a := fun e => hn.1 (e ▸ List.mem_map_of_mem h)
      rw [List.find?_cons_of_neg (by simpa using hne)]
      exact ih hn.2 h

theorem ofToken?_name (m : Mnemonic) : Mnemonic.ofToken? m.name = some m :=
  find?_of_nodup_map Mnemonic.name Mnemonic.all mnemonic_spellings_distinct m (mem_mnemonicAll m)

theorem name_of_ofToken? {tok : Token} {m : Mnemonic} (h : Mnemonic.ofToken? tok = some m) : m.name = tok := by
  simpa using List.find?_some h

/-! ### Codes (R14, R26) -/

theorem rFind?_code {T : Tables} (hT : T.wf = true) (op : ROp) : T.rTable.find? (T.rTable.code op) = some op :=
  find?_of_nodup_map T.rTable.code ROp.all (wf_rCodes hT) op (mem_rAll op)

theorem iFind?_code {T : Tables} (hT : T.wf = true) (op : IOp) : T.iTable.find? (T.iTable.code op) = some op :=
  find?_of_nodup_map T.iTable.code IOp.all (List.Nodup.of_append_left (wf_ijCodes hT)) op (mem_iAll op)

theorem jFind?_code {T : Tables} (hT : T.wf = true) (op : JOp) : T.jTable.find? (T.jTable.code op) = some op :=
  find?_of_nodup_map T.jTable.code JOp.all (List.Nodup.of_append_right (wf_ijCodes hT)) op (mem_jAll op)

theorem code_of_rFind? {t : RTable} {c : Code} {op : ROp} (h : t.find? c = some op) : t.code op = c := by
  simpa using List.find?_some h

theorem code_of_iFind? {t : ITable} {c : Code} {op : IOp} (h : t.find? c = some op) : t.code op = c := by
  simpa using List.find?_some h

theorem code_of_jFind? {t : JTable} {c : Code} {op : JOp} (h : t.find? c = some op) : t.code op = c := by
  simpa using List.find?_some h

theorem rFind?_eq_none {t : RTable} {c : Code} : t.find? c = none ↔ ∀ op, t.code op ≠ c := by
  simp only [RTable.find?, List.find?_eq_none, beq_iff_eq]
  exact ⟨fun h op => h op (mem_rAll op), fun h op _ => h op⟩

theorem iFind?_eq_none {t : ITable} {c : Code} : t.find? c = none ↔ ∀ op, t.code op ≠ c := by
  simp only [ITable.find?, List.find?_eq_none, beq_iff_eq]
  exact ⟨fun h op => h op (mem_iAll op), fun h op _ => h op⟩

theorem jFind?_eq_none {t : JTable} {c : Code} : t.find? c = none ↔ ∀ op, t.code op ≠ c := by
  simp only [JTable.find?, List.find?_eq_none, beq_iff_eq]
  exact ⟨fun h op => h op (mem_jAll op), fun h op _ => h op⟩

theorem iCode_ne_zero {T : Tables} (hT : T.wf = true) (op : IOp) : T.iTable.code op ≠ 0#6 := fun e =>
  wf_zero_not_ij hT (List.mem_append_left _ (e ▸ List.mem_map_of_mem (mem_iAll op)))

theorem jCode_ne_zero {T : Tables} (hT : T.wf = true) (op : JOp) : T.jTable.code op ≠ 0#6 := fun e =>
  wf_zero_not_ij hT (List.mem_append_right _ (e ▸ List.mem_map_of_mem (mem_jAll op)))

/-- The I-table and J-table opcode sets are disjoint (R14). -/
theorem iCode_ne_jCode {T : Tables} (hT : T.wf = true) (a : IOp) (b : JOp) : T.iTable.code a ≠ T.jTable.code b :=
  fun e => (List.disjoint_of_nodup_append (wf_ijCodes hT)) (List.mem_map_of_mem (mem_iAll a))
    (e ▸ List.mem_map_of_mem (mem_jAll b))

/-! ### Register names (R11, R12) -/

namespace Machine

theorem regName_eq_getElem (T : Tables) (i : RegIx) :
    regName T i = T.regNames.toList[i.toNat]'(by simpa using i.isLt) := by
  simp [regName]

theorem regIndex_regName {T : Tables} (hT : T.wf = true) (i : RegIx) : regIndex T (regName T i) = .ok i := by
  have hlt : i.toNat < T.regNames.toList.length := by simpa using i.isLt
  have hfind : T.regNames.toList.findIdx? (fun n => n == regName T i) = some i.toNat := by
    rw [List.findIdx?_eq_some_iff_getElem]
    refine ⟨hlt, by simp [regName], fun j hj => ?_⟩
    rw [regName_eq_getElem]
    have hne := (List.nodup_iff_injective_get.1 (wf_names hT)).ne
      (a₁ := ⟨j, by omega⟩) (a₂ := ⟨i.toNat, hlt⟩) (by simp; omega)
    simpa [List.get_eq_getElem] using hne
  simp [regIndex, hfind]

theorem regName_of_regIndex {T : Tables} {n : Line} {i : RegIx} (h : regIndex T n = .ok i) : regName T i = n := by
  unfold regIndex at h
  split at h
  · rename_i k hk
    obtain ⟨hlt, hp, -⟩ := List.findIdx?_eq_some_iff_getElem.1 hk
    have hk32 : k < 32 := by simpa using hlt
    have hik : i = BitVec.ofNat 5 k := by simpa using h.symm
    have hi : i.toNat = k := by
      rw [hik, BitVec.toNat_ofNat]; omega
    rw [regName_eq_getElem]
    simp only [hi]
    simpa using hp
  · cases h

theorem regIndex_eq_error {T : Tables} {n : Line} {k : ErrorKind} :
    regIndex T n = .error k ↔ k = .unknownRegister ∧ ∀ i, regName T i ≠ n := by
  constructor
  · intro h
    unfold regIndex at h
    split at h
    · cases h
    · rename_i hnone
      refine ⟨by simpa using h.symm, fun i hi => ?_⟩
      rw [List.findIdx?_eq_none_iff] at hnone
      have := hnone (regName T i) (by rw [regName_eq_getElem]; exact List.getElem_mem _)
      simp [hi] at this
  · rintro ⟨rfl, h⟩
    unfold regIndex
    split
    · rename_i k hk
      obtain ⟨hlt, hp, -⟩ := List.findIdx?_eq_some_iff_getElem.1 hk
      have hk32 : k < 32 := by simpa using hlt
      refine absurd ?_ (h (BitVec.ofNat 5 k))
      rw [regName_eq_getElem]
      have : (BitVec.ofNat 5 k).toNat = k := by rw [BitVec.toNat_ofNat]; omega
      simp only [this]
      simpa using hp
    · rfl

/-- A register token reads back as its register (R73). -/
theorem regOperand_regText {T : Tables} (hT : T.wf = true) (i : RegIx) : regOperand T (regText T i) = .ok i := by
  simp [regOperand, regText, regIndex_regName hT]

end Machine

end Sys2Proof
end

