-- ==== Sys2Proof/Laws/Words.lean ====
section
/-! SUPPORT. The fields of the three layouts, and the words they make up (`30_encoding.md` R35 to R37, R39). -/

namespace Sys2Proof

/-! ### Bits of the layouts -/

theorem getLsbD_rWord (rs rt rd : RegIx) (shamt : Shamt) (funct : Code) (i : Nat) :
    (rWord rs rt rd shamt funct).getLsbD i =
      if i < 6 then funct.getLsbD i else if i < 11 then shamt.getLsbD (i - 6)
      else if i < 16 then rd.getLsbD (i - 11) else if i < 21 then rt.getLsbD (i - 16)
      else if i < 26 then rs.getLsbD (i - 21) else false := by
  have h0 : pack 0 6 = 0#6 := rfl
  simp only [rWord, h0, BitVec.getLsbD_append, BitVec.getLsbD_zero]
  grind

theorem getLsbD_iWord (opcode : Code) (rs rt : RegIx) (imm : Imm) (i : Nat) :
    (iWord opcode rs rt imm).getLsbD i =
      if i < 16 then imm.getLsbD i else if i < 21 then rt.getLsbD (i - 16)
      else if i < 26 then rs.getLsbD (i - 21) else opcode.getLsbD (i - 26) := by
  simp only [iWord, BitVec.getLsbD_append]
  grind

theorem getLsbD_jWord (opcode : Code) (addr : Addr) (i : Nat) :
    (jWord opcode addr).getLsbD i = if i < 26 then addr.getLsbD i else opcode.getLsbD (i - 26) := by
  simp only [jWord, BitVec.getLsbD_append]

/-! ### Bits of the fields -/

theorem getLsbD_extract (w : Word) (hi lo i : Nat) :
    (w.extractLsb hi lo).getLsbD i = (decide (i < hi - lo + 1) && w.getLsbD (lo + i)) := by
  simp only [BitVec.getLsbD_extractLsb]

theorem getLsbD_opcodeField (w : Word) (i : Nat) :
    (opcodeField w).getLsbD i = (decide (i < 6) && w.getLsbD (26 + i)) :=
  getLsbD_extract w 31 26 i

theorem getLsbD_rsField (w : Word) (i : Nat) :
    (rsField w).getLsbD i = (decide (i < 5) && w.getLsbD (21 + i)) :=
  getLsbD_extract w 25 21 i

theorem getLsbD_rtField (w : Word) (i : Nat) :
    (rtField w).getLsbD i = (decide (i < 5) && w.getLsbD (16 + i)) :=
  getLsbD_extract w 20 16 i

theorem getLsbD_rdField (w : Word) (i : Nat) :
    (rdField w).getLsbD i = (decide (i < 5) && w.getLsbD (11 + i)) :=
  getLsbD_extract w 15 11 i

theorem getLsbD_shamtField (w : Word) (i : Nat) :
    (shamtField w).getLsbD i = (decide (i < 5) && w.getLsbD (6 + i)) :=
  getLsbD_extract w 10 6 i

theorem getLsbD_functField (w : Word) (i : Nat) :
    (functField w).getLsbD i = (decide (i < 6) && w.getLsbD (0 + i)) :=
  getLsbD_extract w 5 0 i

theorem getLsbD_immField (w : Word) (i : Nat) :
    (immField w).getLsbD i = (decide (i < 16) && w.getLsbD (0 + i)) :=
  getLsbD_extract w 15 0 i

theorem getLsbD_addrField (w : Word) (i : Nat) :
    (addrField w).getLsbD i = (decide (i < 26) && w.getLsbD (0 + i)) :=
  getLsbD_extract w 25 0 i


/-! ### The fields of a layout are what was put in -/

section RWord
variable (rs rt rd : RegIx) (shamt : Shamt) (funct : Code)

@[simp] theorem opcodeField_rWord : opcodeField (rWord rs rt rd shamt funct) = 0#6 := by
  apply BitVec.eq_of_getLsbD_eq; intro i hi; rw [getLsbD_opcodeField, getLsbD_rWord]; grind
@[simp] theorem rsField_rWord : rsField (rWord rs rt rd shamt funct) = rs := by
  apply BitVec.eq_of_getLsbD_eq; intro i hi; rw [getLsbD_rsField, getLsbD_rWord]; grind
@[simp] theorem rtField_rWord : rtField (rWord rs rt rd shamt funct) = rt := by
  apply BitVec.eq_of_getLsbD_eq; intro i hi; rw [getLsbD_rtField, getLsbD_rWord]; grind
@[simp] theorem rdField_rWord : rdField (rWord rs rt rd shamt funct) = rd := by
  apply BitVec.eq_of_getLsbD_eq; intro i hi; rw [getLsbD_rdField, getLsbD_rWord]; grind
@[simp] theorem shamtField_rWord : shamtField (rWord rs rt rd shamt funct) = shamt := by
  apply BitVec.eq_of_getLsbD_eq; intro i hi; rw [getLsbD_shamtField, getLsbD_rWord]; grind
@[simp] theorem functField_rWord : functField (rWord rs rt rd shamt funct) = funct := by
  apply BitVec.eq_of_getLsbD_eq; intro i hi; rw [getLsbD_functField, getLsbD_rWord]; grind

end RWord

section IWord
variable (opcode : Code) (rs rt : RegIx) (imm : Imm)

@[simp] theorem opcodeField_iWord : opcodeField (iWord opcode rs rt imm) = opcode := by
  apply BitVec.eq_of_getLsbD_eq; intro i hi; rw [getLsbD_opcodeField, getLsbD_iWord]; grind
@[simp] theorem rsField_iWord : rsField (iWord opcode rs rt imm) = rs := by
  apply BitVec.eq_of_getLsbD_eq; intro i hi; rw [getLsbD_rsField, getLsbD_iWord]; grind
@[simp] theorem rtField_iWord : rtField (iWord opcode rs rt imm) = rt := by
  apply BitVec.eq_of_getLsbD_eq; intro i hi; rw [getLsbD_rtField, getLsbD_iWord]; grind
@[simp] theorem immField_iWord : immField (iWord opcode rs rt imm) = imm := by
  apply BitVec.eq_of_getLsbD_eq; intro i hi; rw [getLsbD_immField, getLsbD_iWord]; grind

end IWord

section JWord
variable (opcode : Code) (addr : Addr)

@[simp] theorem opcodeField_jWord : opcodeField (jWord opcode addr) = opcode := by
  apply BitVec.eq_of_getLsbD_eq; intro i hi; rw [getLsbD_opcodeField, getLsbD_jWord]; grind
@[simp] theorem addrField_jWord : addrField (jWord opcode addr) = addr := by
  apply BitVec.eq_of_getLsbD_eq; intro i hi; rw [getLsbD_addrField, getLsbD_jWord]; grind

end JWord

/-! ### A word is the layout of its fields -/

/-- Every word with opcode 0 is the R layout of its own fields. -/
theorem rWord_fields (w : Word) (h : opcodeField w = 0#6) :
    rWord (rsField w) (rtField w) (rdField w) (shamtField w) (functField w) = w := by
  apply BitVec.eq_of_getLsbD_eq
  intro i hi
  rw [getLsbD_rWord, getLsbD_rsField, getLsbD_rtField, getLsbD_rdField, getLsbD_shamtField, getLsbD_functField]
  have h26 : 26 ≤ i → w.getLsbD i = false := fun hge => by
    have := congrArg (fun b : Code => b.getLsbD (i - 26)) h
    simp only [getLsbD_opcodeField, BitVec.getLsbD_zero] at this
    rw [show 26 + (i - 26) = i by omega] at this
    grind
  grind

/-- Every word is the I layout of its own fields. -/
theorem iWord_fields (w : Word) : iWord (opcodeField w) (rsField w) (rtField w) (immField w) = w := by
  apply BitVec.eq_of_getLsbD_eq
  intro i hi
  rw [getLsbD_iWord, getLsbD_opcodeField, getLsbD_rsField, getLsbD_rtField, getLsbD_immField]
  grind

/-- Every word is the J layout of its own fields. -/
theorem jWord_fields (w : Word) : jWord (opcodeField w) (addrField w) = w := by
  apply BitVec.eq_of_getLsbD_eq
  intro i hi
  rw [getLsbD_jWord, getLsbD_opcodeField, getLsbD_addrField]
  grind

/-! ### Clearing the unused fields -/

/-- Clearing rs of an R word. -/
theorem rWord_clear_rs (rs rt rd : RegIx) (shamt : Shamt) (funct : Code) :
    rWord rs rt rd shamt funct &&& ~~~0x03E00000#32 = rWord 0#5 rt rd shamt funct := by
  apply BitVec.eq_of_getLsbD_eq
  intro i hi
  simp only [BitVec.getLsbD_and, BitVec.getLsbD_not, getLsbD_rWord]
  interval_cases i <;> simp

/-- Clearing shamt of an R word. -/
theorem rWord_clear_shamt (rs rt rd : RegIx) (shamt : Shamt) (funct : Code) :
    rWord rs rt rd shamt funct &&& ~~~0x000007C0#32 = rWord rs rt rd 0#5 funct := by
  apply BitVec.eq_of_getLsbD_eq
  intro i hi
  simp only [BitVec.getLsbD_and, BitVec.getLsbD_not, getLsbD_rWord]
  interval_cases i <;> simp

/-- Clearing rt, rd and shamt of an R word. -/
theorem rWord_clear_rt_rd_shamt (rs rt rd : RegIx) (shamt : Shamt) (funct : Code) :
    rWord rs rt rd shamt funct &&& ~~~0x001FFFC0#32 = rWord rs 0#5 0#5 0#5 funct := by
  apply BitVec.eq_of_getLsbD_eq
  intro i hi
  simp only [BitVec.getLsbD_and, BitVec.getLsbD_not, getLsbD_rWord]
  interval_cases i <;> simp

/-- Clearing rs of an I word. -/
theorem iWord_clear_rs (opcode : Code) (rs rt : RegIx) (imm : Imm) :
    iWord opcode rs rt imm &&& ~~~0x03E00000#32 = iWord opcode 0#5 rt imm := by
  apply BitVec.eq_of_getLsbD_eq
  intro i hi
  simp only [BitVec.getLsbD_and, BitVec.getLsbD_not, getLsbD_iWord]
  interval_cases i <;> simp

end Sys2Proof
end

