-- ==== Sys2Proof/Laws/Decode.lean ====
section
/-! SUPPORT. What the decoder does on each layout, and the only ways it can accept a word (`45_decoder.md` R102). -/

namespace Sys2Proof

theorem decodeWith_of_rCode {T : Tables} (hT : T.wf = true) {w : Word} {op : ROp} (h0 : opcodeField w = 0#6)
    (h : functField w = T.rTable.code op) : decodeWith T w = .ok (decodeR w op) := by
  simp [decodeWith, h0, h, rFind?_code hT]

theorem decodeWith_of_iCode {T : Tables} (hT : T.wf = true) {w : Word} {op : IOp}
    (h : opcodeField w = T.iTable.code op) : decodeWith T w = .ok (decodeI w op) := by
  simp [decodeWith, h, iCode_ne_zero hT, iFind?_code hT]

theorem decodeWith_of_jCode {T : Tables} (hT : T.wf = true) {w : Word} {op : JOp}
    (h : opcodeField w = T.jTable.code op) : decodeWith T w = .ok (decodeJ w op) := by
  have hi : T.iTable.find? (T.jTable.code op) = none := iFind?_eq_none.2 fun a => iCode_ne_jCode hT a op
  simp [decodeWith, h, jCode_ne_zero hT, hi, jFind?_code hT]

/-- The decoder accepts a word in one of three ways. -/
theorem decodeWith_ok_cases {T : Tables} {w : Word} {i : Instr} (h : decodeWith T w = .ok i) :
    (∃ op, opcodeField w = 0#6 ∧ functField w = T.rTable.code op ∧ i = decodeR w op)
      ∨ (∃ op, opcodeField w = T.iTable.code op ∧ i = decodeI w op)
      ∨ (∃ op, opcodeField w = T.jTable.code op ∧ i = decodeJ w op) := by
  unfold decodeWith at h
  split at h
  · split at h
    · rename_i op hop
      exact .inl ⟨op, ‹_›, (code_of_rFind? hop).symm, by simpa using h.symm⟩
    · cases h
  · split at h
    · rename_i op hop
      exact .inr (.inl ⟨op, (code_of_iFind? hop).symm, by simpa using h.symm⟩)
    · split at h
      · rename_i op hop
        exact .inr (.inr ⟨op, (code_of_jFind? hop).symm, by simpa using h.symm⟩)
      · cases h

/-- The decoder rejects a word in one of two ways (R47, R104). -/
theorem decodeWith_error_cases {T : Tables} {w : Word} {k : ErrorKind} (h : decodeWith T w = .error k) :
    (k = .unknownFunct ∧ opcodeField w = 0#6 ∧ ∀ op, T.rTable.code op ≠ functField w)
      ∨ (k = .unknownOpcode ∧ opcodeField w ≠ 0#6 ∧ (∀ op, T.iTable.code op ≠ opcodeField w)
          ∧ ∀ op, T.jTable.code op ≠ opcodeField w) := by
  unfold decodeWith at h
  split at h
  · left
    split at h
    · cases h
    · exact ⟨by simpa using h.symm, ‹_›, rFind?_eq_none.1 ‹_›⟩
  · right
    split at h
    · cases h
    · split at h
      · cases h
      · exact ⟨by simpa using h.symm, ‹_›, iFind?_eq_none.1 ‹_›, jFind?_eq_none.1 ‹_›⟩

end Sys2Proof
end

