-- ==== Sys2Proof/Laws/Numerals.lean ====
section
/-! SUPPORT. Decimal numerals (`40_bitfield_codec.md` R58, R59): what the digit reader does on a sequence, and what the digit
printer prints. -/

namespace Sys2Proof.Machine

/-- An ASCII decimal digit. -/
def IsDigit (c : Char) : Prop := '0' ≤ c ∧ c ≤ '9'

theorem isDigit_iff (c : Char) : IsDigit c ↔ 48 ≤ c.toNat ∧ c.toNat ≤ 57 := Iff.rfl

theorem digitValue?_eq (c : Char) : digitValue? c = if 48 ≤ c.toNat ∧ c.toNat ≤ 57 then some (c.toNat - 48) else none := rfl

theorem digitValue?_isSome {c : Char} : (∃ d, digitValue? c = some d) ↔ IsDigit c := by
  rw [digitValue?_eq, isDigit_iff]; split <;> simp_all

theorem toNat_digitChar {d : Nat} (h : d < 10) : (digitChar d).toNat = 48 + d := by
  interval_cases d <;> rfl

theorem isDigit_digitChar {d : Nat} (h : d < 10) : IsDigit (digitChar d) := by
  rw [isDigit_iff, toNat_digitChar h]; omega

theorem digitValue?_digitChar {d : Nat} (h : d < 10) : digitValue? (digitChar d) = some d := by
  rw [digitValue?_eq, toNat_digitChar h, if_pos (by omega)]; congr 1; omega

/-- Reading a sequence is reading its parts one after the other. -/
theorem digitsValue?_append (acc : Nat) (a b : List Char) :
    digitsValue? acc (a ++ b) = (digitsValue? acc a).bind fun n => digitsValue? n b := by
  induction a generalizing acc with
  | nil => rfl
  | cons c cs ih =>
    simp only [List.cons_append, digitsValue?]
    split
    · exact ih _
    · rfl

/-- A sequence has a value exactly when each of its characters is a digit. -/
theorem digitsValue?_isSome (acc : Nat) (cs : List Char) :
    (∃ n, digitsValue? acc cs = some n) ↔ ∀ c ∈ cs, IsDigit c := by
  induction cs generalizing acc with
  | nil => simp [digitsValue?]
  | cons c cs ih =>
    simp only [digitsValue?, List.mem_cons, forall_eq_or_imp]
    cases hd : digitValue? c with
    | none =>
      have : ¬ IsDigit c := fun h => by
        obtain ⟨d, hd'⟩ := digitValue?_isSome.2 h
        simp [hd] at hd'
      simp [this]
    | some d =>
      have : IsDigit c := digitValue?_isSome.1 ⟨d, hd⟩
      simp [this, ih]

theorem natDigits_ne_nil (fuel n : Nat) : natDigits fuel n ≠ [] := by
  cases fuel with
  | zero => simp [natDigits]
  | succ f => unfold natDigits; split <;> simp

theorem isDigit_of_mem_natDigits {fuel n : Nat} {c : Char} (h : c ∈ natDigits fuel n) : IsDigit c := by
  induction fuel generalizing n with
  | zero =>
    simp only [natDigits, List.mem_singleton] at h
    exact h ▸ isDigit_digitChar (Nat.mod_lt _ (by decide))
  | succ f ih =>
    unfold natDigits at h
    split at h
    · simp only [List.mem_singleton] at h
      exact h ▸ isDigit_digitChar ‹_›
    · rcases List.mem_append.1 h with h | h
      · exact ih h
      · simp only [List.mem_singleton] at h
        exact h ▸ isDigit_digitChar (Nat.mod_lt _ (by decide))

/-- With fuel for its digits, a number's digits read back as the number. -/
theorem digitsValue?_natDigits {fuel n : Nat} (h : n ≤ fuel) : digitsValue? 0 (natDigits fuel n) = some n := by
  induction fuel generalizing n with
  | zero =>
    obtain rfl : n = 0 := by omega
    rfl
  | succ f ih =>
    unfold natDigits
    split
    · simp [digitsValue?, digitValue?_digitChar ‹_›]
    · rw [digitsValue?_append, ih (by omega)]
      have hd : n % 10 < 10 := Nat.mod_lt _ (by decide)
      simp only [Option.bind_some, digitsValue?, digitValue?_digitChar hd]
      congr 1; omega

/-- The first digit is `0` only for the number 0. -/
theorem head_natDigits {fuel n : Nat} (h : n ≤ fuel) (hn : n ≠ 0) : (natDigits fuel n).head? ≠ some '0' := by
  induction fuel generalizing n with
  | zero => omega
  | succ f ih =>
    unfold natDigits
    split
    · intro he
      have h0 : digitChar n = '0' := by simpa using he
      have := toNat_digitChar ‹_›
      rw [h0] at this
      have h48 : '0'.toNat = 48 := rfl
      omega
    · rw [List.head?_append_of_ne_nil _ (natDigits_ne_nil f (n / 10))]
      exact ih (by omega) (by omega)

theorem natText_ne_nil (n : Nat) : natText n ≠ [] := natDigits_ne_nil n n

theorem isDigit_of_mem_natText {n : Nat} {c : Char} (h : c ∈ natText n) : IsDigit c := isDigit_of_mem_natDigits h

theorem numeralValue?_natText (n : Nat) : numeralValue? (natText n) = some n := by
  have h := digitsValue?_natDigits (le_refl n)
  unfold natText
  cases hc : natDigits n n with
  | nil => exact absurd hc (natDigits_ne_nil n n)
  | cons c cs => rw [hc] at h; exact h

end Sys2Proof.Machine
end

