-- ==== Sys2Proof/Laws/PerInstr.lean ====
section
/-! SUPPORT. Statements made instruction by instruction, about the instruction as syntax. Family `EncoderZeroesUnusedFields`:
the fields a mnemonic does not use are 0 in the word the Encoder writes for it (`30_encoding.md` R48). -/

namespace Sys2Proof.Laws.EncoderZeroesUnusedFields

/-- No bit that `i` does not use is set in its word. -/
def Statement (i : Instr) : Prop := encode i &&& unusedBits i = 0#32

/-! ### The layouts with their unused fields at 0 -/

theorem rWord_no_shamt (rs rt rd : RegIx) (funct : Code) : rWord rs rt rd 0#5 funct &&& 0x000007C0#32 = 0#32 := by
  apply BitVec.eq_of_getLsbD_eq
  intro i hi
  simp only [BitVec.getLsbD_and, getLsbD_rWord]
  interval_cases i <;> simp

theorem rWord_no_rs (rt rd : RegIx) (shamt : Shamt) (funct : Code) :
    rWord 0#5 rt rd shamt funct &&& 0x03E00000#32 = 0#32 := by
  apply BitVec.eq_of_getLsbD_eq
  intro i hi
  simp only [BitVec.getLsbD_and, getLsbD_rWord]
  interval_cases i <;> simp

theorem rWord_only_rs (rs : RegIx) (funct : Code) : rWord rs 0#5 0#5 0#5 funct &&& 0x001FFFC0#32 = 0#32 := by
  apply BitVec.eq_of_getLsbD_eq
  intro i hi
  simp only [BitVec.getLsbD_and, getLsbD_rWord]
  interval_cases i <;> simp

theorem iWord_no_rs (opcode : Code) (rt : RegIx) (imm : Imm) : iWord opcode 0#5 rt imm &&& 0x03E00000#32 = 0#32 := by
  apply BitVec.eq_of_getLsbD_eq
  intro i hi
  simp only [BitVec.getLsbD_and, getLsbD_iWord]
  interval_cases i <;> simp

/-! ### The instructions -/

theorem nop : Statement .nop := by unfold Statement; decide
theorem add (rd rs rt : RegIx) : Statement (.add rd rs rt) := rWord_no_shamt rs rt rd _
theorem sub (rd rs rt : RegIx) : Statement (.sub rd rs rt) := rWord_no_shamt rs rt rd _
theorem and (rd rs rt : RegIx) : Statement (.and rd rs rt) := rWord_no_shamt rs rt rd _
theorem or (rd rs rt : RegIx) : Statement (.or rd rs rt) := rWord_no_shamt rs rt rd _
theorem xor (rd rs rt : RegIx) : Statement (.xor rd rs rt) := rWord_no_shamt rs rt rd _
theorem slt (rd rs rt : RegIx) : Statement (.slt rd rs rt) := rWord_no_shamt rs rt rd _
theorem sll (rd rt : RegIx) (shamt : Shamt) : Statement (.sll rd rt shamt) := rWord_no_rs rt rd shamt _
theorem srl (rd rt : RegIx) (shamt : Shamt) : Statement (.srl rd rt shamt) := rWord_no_rs rt rd shamt _
theorem jr (rs : RegIx) : Statement (.jr rs) := rWord_only_rs rs _
theorem addi (rt rs : RegIx) (imm : Imm) : Statement (.addi rt rs imm) := BitVec.and_zero
theorem slti (rt rs : RegIx) (imm : Imm) : Statement (.slti rt rs imm) := BitVec.and_zero
theorem lui (rt : RegIx) (imm : Imm) : Statement (.lui rt imm) := iWord_no_rs _ rt imm
theorem lw (rt : RegIx) (imm : Imm) (rs : RegIx) : Statement (.lw rt imm rs) := BitVec.and_zero
theorem sw (rt : RegIx) (imm : Imm) (rs : RegIx) : Statement (.sw rt imm rs) := BitVec.and_zero
theorem beq (rs rt : RegIx) (imm : Imm) : Statement (.beq rs rt imm) := BitVec.and_zero
theorem bne (rs rt : RegIx) (imm : Imm) : Statement (.bne rs rt imm) := BitVec.and_zero
theorem j (addr : Addr) : Statement (.j addr) := BitVec.and_zero
theorem jal (addr : Addr) : Statement (.jal addr) := BitVec.and_zero

end Sys2Proof.Laws.EncoderZeroesUnusedFields
end

