-- ==== Sys2Proof/Laws/Text.lean ====
section
/-! SUPPORT. Lines, trimming and tokens (`41_encoder_frontend.md` R64, R65, R69). -/

namespace Sys2Proof.Machine

/-! ### Trimming -/

/-- Trimming takes whitespace off both ends and nothing else. -/
theorem trim_spec (s : Line) : ∃ a b, s = a ++ trim s ++ b ∧ (∀ c ∈ a, isWs c = true) ∧ (∀ c ∈ b, isWs c = true)
    ∧ (∀ c, (trim s).head? = some c → isWs c = false) ∧ (∀ c, (trim s).getLast? = some c → isWs c = false) := by
  have h1 := List.takeWhile_append_dropWhile (p := isWs) (l := s)
  have h2 := List.takeWhile_append_dropWhile (p := isWs) (l := (s.dropWhile isWs).reverse)
  have h3 : s.dropWhile isWs = trim s ++ ((s.dropWhile isWs).reverse.takeWhile isWs).reverse := by
    have := congrArg List.reverse h2
    rw [List.reverse_append, List.reverse_reverse] at this
    exact this.symm
  refine ⟨s.takeWhile isWs, ((s.dropWhile isWs).reverse.takeWhile isWs).reverse, ?_, ?_, ?_, ?_, ?_⟩
  · rw [List.append_assoc, ← h3, h1]
  · exact fun c hc => List.mem_takeWhile_imp hc
  · exact fun c hc => List.mem_takeWhile_imp (List.mem_reverse.1 hc)
  · intro c hc
    have hd : (s.dropWhile isWs).head? = some c := by
      rw [h3, List.head?_append, hc]; rfl
    have := List.head?_dropWhile_not isWs s
    rw [hd] at this
    simpa using this
  · intro c hc
    have hd : ((s.dropWhile isWs).reverse.dropWhile isWs).head? = some c := by
      rw [← hc, trim, List.getLast?_reverse]
    have := List.head?_dropWhile_not isWs (s.dropWhile isWs).reverse
    rw [hd] at this
    simpa using this

/-- A line with no whitespace at its ends is its own trimming. -/
theorem trim_eq_self {s : Line} (hh : ∀ c, s.head? = some c → isWs c = false)
    (hl : ∀ c, s.getLast? = some c → isWs c = false) : trim s = s := by
  have h1 : s.dropWhile isWs = s := by
    cases s with
    | nil => rfl
    | cons c cs => simp [List.dropWhile, hh c rfl]
  have h2 : s.reverse.dropWhile isWs = s.reverse := by
    cases hr : s.reverse with
    | nil => rfl
    | cons c cs =>
      have : s.getLast? = some c := by rw [← List.head?_reverse, hr]; rfl
      simp [List.dropWhile, hl c this]
  rw [trim, h1, h2, List.reverse_reverse]

theorem trim_trim (s : Line) : trim (trim s) = trim s := by
  obtain ⟨_, _, _, _, _, hh, hl⟩ := trim_spec s
  exact trim_eq_self hh hl

/-! ### The sentinel (R100, D12) -/

theorem sentinelLine_admissible : sentinelAdmissible sentinelLine = true := by
  unfold sentinelLine
  split
  · assumption
  · decide

theorem isSentinel_iff (t : Line) : isSentinel t = true ↔ t = sentinelLine := by
  unfold isSentinel
  constructor
  · intro h
    simp only [Bool.and_eq_true, beq_iff_eq] at h
    exact h.2
  · rintro rfl
    simp [sentinelLine_admissible]

/-! ### Pieces and tokens -/

theorem pieces_ne_nil (s : Line) : pieces s ≠ [] := by
  cases s with
  | nil => simp [pieces]
  | cons c cs => simp only [pieces]; split; · simp
                 · split <;> simp

/-- A delimiter ends a piece, whatever stands before it. -/
theorem pieces_append_delimiter (a : Line) (d : Char) (b : Line) (hd : isDelimiter d = true) :
    pieces (a ++ d :: b) = pieces a ++ pieces b := by
  induction a with
  | nil => simp [pieces, hd]
  | cons c cs ih =>
    simp only [List.cons_append, pieces, ih]
    split
    · simp
    · cases h : pieces cs with
      | nil => exact absurd h (pieces_ne_nil cs)
      | cons p ps => simp

/-- A line without a delimiter is one piece. -/
theorem pieces_of_no_delimiter {a : Line} (h : ∀ c ∈ a, isDelimiter c = false) : pieces a = [a] := by
  induction a with
  | nil => rfl
  | cons c cs ih =>
    have hcs : ∀ x ∈ cs, isDelimiter x = false := fun x hx => h x (List.mem_cons_of_mem _ hx)
    simp [pieces, h c List.mem_cons_self, ih hcs]

/-- A delimiter separates tokens. -/
theorem tokens_append_delimiter (a : Line) (d : Char) (b : Line) (h : isDelimiter d = true) :
    tokens (a ++ d :: b) = tokens a ++ tokens b := by
  simp [tokens, pieces_append_delimiter a d b h]

/-- A line without a delimiter is one token. -/
theorem tokens_of_no_delimiter {a : Line} (h : a ≠ []) (hd : ∀ c ∈ a, isDelimiter c = false) : tokens a = [a] := by
  simp [tokens, pieces_of_no_delimiter hd, h]

end Sys2Proof.Machine
end

