-- ==== Sys2Proof/Laws/Printing.lean ====
section
/-! SUPPORT. What the Encoder's front end makes of a printed line: a mnemonic, a space and operands that keep clear of
delimiters, comments and labels (`41_encoder_frontend.md` R63 to R71; `45_decoder.md` R105). -/

namespace Sys2Proof.Machine

/-- A character that no front-end rule treats specially inside a line. -/
def PlainChar (c : Char) : Prop := isDelimiter c = false ∧ c ≠ '#' ∧ c ≠ ':'

theorem PlainChar.notWs {c : Char} (h : PlainChar c) : isWs c = false := by
  have := h.1
  simp only [isDelimiter, Bool.or_eq_false_iff] at this
  exact this.2

/-- Operand text that survives comment removal, trimming and the label test. -/
structure OperandText (b : Line) : Prop where
  noComment : '#' ∉ b
  last : ∃ c, b.getLast? = some c ∧ isWs c = false ∧ c ≠ ':'

theorem OperandText.append {a b : Line} (h : OperandText b) (ha : '#' ∉ a) : OperandText (a ++ b) := by
  obtain ⟨h1, c, h2, h3⟩ := h
  exact ⟨by simp [ha, h1], c, by simp [List.getLast?_append, h2], h3⟩

theorem operandText_of_plain {a : Line} (hne : a ≠ []) (h : ∀ c ∈ a, PlainChar c) : OperandText a :=
  ⟨fun e => (h _ e).2.1 rfl, a.getLast hne, List.getLast?_eq_some_getLast hne, (h _ (List.getLast_mem hne)).notWs,
    (h _ (List.getLast_mem hne)).2.2⟩

/-! ### The mnemonic -/

theorem mnemonic_name_ne_nil (m : Mnemonic) : m.name ≠ [] := by
  rcases m with op | op | op <;> cases op <;> exact List.cons_ne_nil _ _

theorem mnemonic_name_chars (m : Mnemonic) :
    ∀ c ∈ m.name, isDelimiter c = false ∧ isWs c = false ∧ c ≠ '#' ∧ c ≠ '.' := by
  have hb : (m.name.all fun c => !isDelimiter c && !isWs c && c != '#' && c != '.') = true := by
    rcases m with op | op | op <;> cases op <;> decide +kernel
  exact fun c hc => by simpa [and_assoc] using List.all_eq_true.1 hb c hc

/-- A mnemonic, a space and operand text is that operation with the text's tokens. -/
theorem classify_operation (m : Mnemonic) {b : Line} (hb : OperandText b) :
    classify (m.name ++ [' '] ++ b) = .operation m (tokens b) := by
  have hne := mnemonic_name_ne_nil m
  have hm := mnemonic_name_chars m
  obtain ⟨hh, c, hl, hw, hc⟩ := hb
  obtain ⟨d, ds, hd⟩ : ∃ d ds, m.name = d :: ds := List.exists_cons_of_ne_nil hne
  have hdm := hm d (by simp [hd])
  have hs : stripComment (m.name ++ [' '] ++ b) = m.name ++ [' '] ++ b := by
    rw [stripComment, List.takeWhile_eq_self_iff]
    intro x hx
    simp only [List.mem_append, List.mem_singleton] at hx
    rcases hx with (hx | hx) | hx
    · simpa [commentChar] using (hm x hx).2.2.1
    · subst hx; decide
    · have : x ≠ '#' := fun e => hh (e ▸ hx)
      simpa [commentChar] using this
  have hhd : (m.name ++ [' '] ++ b).head? = some d := by simp [hd]
  have hlt : (m.name ++ [' '] ++ b).getLast? = some c := by rw [List.getLast?_append, hl]; rfl
  have ht : trim (m.name ++ [' '] ++ b) = m.name ++ [' '] ++ b := by
    apply trim_eq_self
    · intro x hx; rw [hhd] at hx; cases hx; exact hdm.2.1
    · intro x hx; rw [hlt] at hx; cases hx; exact hw
  have hn0 : m.name ++ [' '] ++ b ≠ [] := by simp
  have hnn : m.name ++ [' '] ++ b ≠ nopText := by
    intro e
    have : ' ' ∈ nopText := by rw [← e]; simp
    revert this; decide
  have hd1 : d ≠ directiveChar := hdm.2.2.2
  have hc1 : c ≠ labelChar := hc
  have htk : tokens (m.name ++ [' '] ++ b) = m.name :: tokens b := by
    have : m.name ++ [' '] ++ b = m.name ++ ' ' :: b := by simp
    rw [this, tokens_append_delimiter _ _ _ (by decide), tokens_of_no_delimiter hne fun x hx => (hm x hx).1]; rfl
  simp only [classify, hs, ht, hn0, hhd, hlt, hnn, htk, if_false, Option.some.injEq, hd1, hc1, ofToken?_name]

/-! ### Printed registers and integers -/

/-- The spec's register names hold nothing special (R13). -/
theorem regName_standard_plain (i : RegIx) : ∀ c ∈ regName Tables.standard i, PlainChar c := by
  have hb : (Tables.standard.regNames.toList.all fun n => n.all fun c => !isDelimiter c && c != '#' && c != ':') = true := by
    decide +kernel
  intro c hc
  rw [regName_eq_getElem] at hc
  have := List.all_eq_true.1 (List.all_eq_true.1 hb _ (List.getElem_mem _)) c hc
  simpa [PlainChar, and_assoc] using this

theorem regText_standard_plain (i : RegIx) : ∀ c ∈ regText Tables.standard i, PlainChar c := by
  intro c hc
  simp only [regText, List.mem_cons] at hc
  rcases hc with rfl | hc
  · exact ⟨by decide, by decide, by decide⟩
  · exact regName_standard_plain i c hc

theorem IsDigit.plain {c : Char} (h : IsDigit c) : PlainChar c := by
  obtain ⟨h1, h2⟩ := (isDigit_iff c).1 h
  have hne : ∀ d : Char, (d.toNat < 48 ∨ 57 < d.toNat) → c ≠ d := by rintro d hd rfl; omega
  refine ⟨?_, hne _ (by decide), hne _ (by decide)⟩
  simp only [isDelimiter, isWs, Bool.or_eq_false_iff, beq_eq_false_iff_ne]
  refine ⟨⟨⟨?_, ?_⟩, ?_⟩, ⟨⟨⟨⟨?_, ?_⟩, ?_⟩, ?_⟩, ?_⟩, ?_⟩ <;> exact hne _ (by decide)

theorem decText_ne_nil (v : Int) : decText v ≠ [] := by
  unfold decText; split
  · simp
  · exact natText_ne_nil _

theorem decText_plain (v : Int) : ∀ c ∈ decText v, PlainChar c := by
  intro c hc
  unfold decText at hc
  split at hc
  · rcases List.mem_cons.1 hc with rfl | hc
    · exact ⟨by decide, by decide, by decide⟩
    · exact (isDigit_of_mem_natText hc).plain
  · exact (isDigit_of_mem_natText hc).plain

theorem tokens_regText (i : RegIx) : tokens (regText Tables.standard i) = [regText Tables.standard i] :=
  tokens_of_no_delimiter (by simp [regText]) fun c hc => (regText_standard_plain i c hc).1

theorem tokens_decText (v : Int) : tokens (decText v) = [decText v] :=
  tokens_of_no_delimiter (decText_ne_nil v) fun c hc => (decText_plain v c hc).1

theorem tokens_comma (a b : Line) : tokens (a ++ commaText ++ b) = tokens a ++ tokens b := by
  have : a ++ commaText ++ b = a ++ ',' :: ([] ++ ' ' :: b) := by simp [commaText]
  rw [this, tokens_append_delimiter _ _ _ (by decide), tokens_append_delimiter _ _ _ (by decide)]; rfl

end Sys2Proof.Machine
end

