-- ==== Sys2Proof/Laws/State.lean ====
section
/-! SUPPORT. One lemma per field per update of the state, and what the shared operations do. -/

namespace Sys2Proof.Machine

/-! ### Reset -/

@[simp] theorem reset_tables : State.reset.tables = Tables.standard := rfl
@[simp] theorem reset_pending : State.reset.pending = [] := rfl
@[simp] theorem reset_output : State.reset.output = [] := rfl

/-! ### `deliver` and `raiseError` -/

@[simp] theorem deliver_tables (s : State) (r : Result) : (s.deliver r).tables = s.tables := by
  unfold State.deliver; split <;> rfl

@[simp] theorem deliver_pending (s : State) (r : Result) : (s.deliver r).pending = s.pending.tail := by
  unfold State.deliver; split <;> simp_all

theorem deliver_nil (s : State) (r : Result) (h : s.pending = []) : s.deliver r = s := by
  unfold State.deliver; simp [h]

/-- Delivering answers the line in front and appends its result. -/
theorem deliver_cons (s : State) (r : Result) (q : Request) (rest : List Request) (h : s.pending = q :: rest) :
    s.deliver r = { tables := s.tables, pending := rest, output := s.output ++ [r] } := by
  unfold State.deliver; simp [h]

theorem raiseError_eq (s : State) (k : ErrorKind) : s.raiseError k = s.deliver (.error k) := rfl

@[simp] theorem resetBlock_eq (s : State) : s.resetBlock = s := rfl

/-! ### `answer` -/

theorem answer_nil (s : State) (w : Word) (t : Line) (h : s.pending = []) : s.answer w t = .next s := by
  unfold State.answer; simp [h]

theorem answer_encoder (s : State) (w : Word) (t l : Line) (rest : List Request)
    (h : s.pending = ⟨.encoder, l⟩ :: rest) : s.answer w t = .next (s.deliver (.ok (.word w))) := by
  unfold State.answer; simp [h]

theorem answer_decoder (s : State) (w : Word) (t l : Line) (rest : List Request)
    (h : s.pending = ⟨.decoder, l⟩ :: rest) : s.answer w t = .next (s.deliver (.ok (.text t))) := by
  unfold State.answer; simp [h]

/-! ### `withFetchWord` -/

@[simp] theorem withFetchWord_tables (s : State) (n w : Nat) : (s.withFetchWord n w).tables = s.tables := rfl
@[simp] theorem withFetchWord_output (s : State) (n w : Nat) : (s.withFetchWord n w).output = s.output := rfl
theorem withFetchWord_pending (s : State) (n w : Nat) :
    (s.withFetchWord n w).pending = ⟨.decoder, wordText (tableWord n w)⟩ :: s.pending := rfl

end Sys2Proof.Machine
end

