-- ==== Sys2Proof/Laws/Step.lean ====
section
/-! SUPPORT. What a meaning and a step can do, said once: every instruction answers with its pair of translations, and a step is
one transaction of the agent in front. -/

namespace Sys2Proof.Machine

/-- Every instruction's meaning is the answer with its word and its text. -/
theorem exec_eq_answer (i : Instr) (s : State) :
    exec i s = s.answer (encodeWith s.tables i) (render s.tables i) := by
  cases i <;> rfl

/-- With a request in front, an instruction returns that agent's translation. -/
theorem exec_cons (i : Instr) (s : State) (q : Request) (rest : List Request) (h : s.pending = q :: rest) :
    exec i s = .next (s.deliver ((Fetched.instr i).result s.tables q.agent)) := by
  obtain ⟨a, l⟩ := q
  rw [exec_eq_answer]
  cases a
  · exact answer_encoder s _ _ l rest h
  · exact answer_decoder s _ _ l rest h

/-- With no line presented an instruction changes nothing. -/
theorem exec_nil (i : Instr) (s : State) (h : s.pending = []) : exec i s = .next s := by
  rw [exec_eq_answer, answer_nil s _ _ h]

theorem step_nil (s : State) (hT : s.tables.wf = true) (h : s.pending = []) : step s = .next s := by
  simp [step, hT, h]

theorem step_broken (s : State) (hT : s.tables.wf = false) : step s = .refused .tablesBroken := by
  simp [step, hT]

/-- A step with a request in front is that request's transaction: its result is delivered, or it is refused. -/
theorem step_cons (s : State) (q : Request) (rest : List Request) (hT : s.tables.wf = true)
    (h : s.pending = q :: rest) :
    step s = match transact s.tables q with
      | .ok r => .next (s.deliver r)
      | .error e => .refused e := by
  simp only [step, hT, h, if_true, transact]
  cases hf : fetch s.tables q with
  | error e => rfl
  | ok f =>
    cases f with
    | skip => rfl
    | error k => rfl
    | instr i => exact exec_cons i s q rest h

/-- The Encoder has a result for every line. -/
theorem transact_encoder (T : Tables) (l : Line) : transact T ⟨.encoder, l⟩ = .ok (encodeLine T l) := rfl

/-- The Decoder's transaction is `DecodeLine`. -/
theorem transact_decoder (T : Tables) (l : Line) : transact T ⟨.decoder, l⟩ = decodeLine T l := rfl

end Sys2Proof.Machine
end

