-- ==== Sys2Proof/Tests/Slice0.lean ====
section
/-! SUPPORT. The model's own tests. Expected results are the spec's: worked examples and vectors of `95_test_vectors.md`, and
words written out from the layouts of `30_encoding.md` R35 to R37. Then one witness for each statement that has hypotheses. -/

namespace Sys2Proof.Tests

open Sys2Proof.Machine

-- one test after the other: checked all at once, each takes a thread of its own
set_option Elab.async false

/-- A machine with the spec's tables, these lines presented, and no result yet. -/
def presented (rs : List Request) : State := ⟨Tables.standard, rs, []⟩

def encoderLine (l : String) : Request := ⟨.encoder, l.toList⟩
def decoderLine (l : String) : Request := ⟨.decoder, l.toList⟩
def decoderWord (w : Word) : Request := ⟨.decoder, wordText w⟩

/-- The results after an outcome that is a next state. -/
def returned : Host.Outcome State Fault Refusal → Option (List Result)
  | .next s => some s.output
  | .fault _ => none
  | .refused _ => none

/-- One step on one Encoder line, one Decoder line, or one word's line. -/
def encoderStep (l : String) : Option (List Result) := returned (step (presented [encoderLine l]))
def decoderStep (l : String) : Option (List Result) := returned (step (presented [decoderLine l]))
def wordStep (w : Word) : Option (List Result) := returned (step (presented [decoderWord w]))

def word (w : Word) : Option (List Result) := some [.ok (.word w)]
def text (t : String) : Option (List Result) := some [.ok (.text t.toList)]
def error (k : ErrorKind) : Option (List Result) := some [.error k]
def skip : Option (List Result) := some [.skip]

/-- A step is the transaction of the line in front: the tests below are about one step, and evaluate its transaction. -/
theorem encoderStep_eq (l : String) : encoderStep l = some [encodeLine Tables.standard l.toList] := by
  unfold encoderStep
  rw [step_cons _ _ _ standard_wf rfl]; rfl

theorem decoderStep_eq {l : String} {r : Result} (h : decodeLine Tables.standard l.toList = .ok r) :
    decoderStep l = some [r] := by
  unfold decoderStep
  rw [step_cons _ _ _ standard_wf rfl, show transact (presented [decoderLine l]).tables (decoderLine l) = .ok r from h]; rfl

theorem wordStep_eq {w : Word} {r : Result} (h : decodeLine Tables.standard (wordText w) = .ok r) :
    wordStep w = some [r] := by
  unfold wordStep
  rw [step_cons _ _ _ standard_wf rfl, show transact (presented [decoderWord w]).tables (decoderWord w) = .ok r from h]; rfl

theorem next_of_returned {o : Host.Outcome State Fault Refusal} {r : List Result} (h : returned o = some r) :
    ∃ t, o = .next t ∧ t.output = r := by
  cases o with
  | next s => exact ⟨s, rfl, by simpa [returned] using h⟩
  | fault f => cases f
  | refused e => simp [returned] at h

/-! ### WellFormed -/

/-- The one check: `sll $zero, $zero, 0`, whose word is `nop`'s (`90_conflicts.md` C3). -/
theorem test_wellFormed_refuses_zero_sll : (Instr.sll 0 0 0).wellFormed = false := by decide
theorem test_wellFormed_accepts_sll_with_shamt : (Instr.sll 0 0 1).wellFormed = true := by decide

/-! ### Decoding: every constructor, by a word written out from its layout -/
theorem test_decode_nop : decode 0b000000_00000_00000_00000_00000_000000#32 = .ok (.nop) := by decide +kernel
theorem test_decode_add : decode 0b000000_01001_01010_01000_00000_100000#32 = .ok (.add 8 9 10) := by decide +kernel
theorem test_decode_sub : decode 0b000000_10001_10010_10000_00000_100010#32 = .ok (.sub 16 17 18) := by decide +kernel
theorem test_decode_and : decode 0b000000_00101_00110_00100_00000_100100#32 = .ok (.and 4 5 6) := by decide +kernel
theorem test_decode_or : decode 0b000000_00011_00001_00010_00000_100101#32 = .ok (.or 2 3 1) := by decide +kernel
theorem test_decode_xor : decode 0b000000_01100_01101_01011_00000_100110#32 = .ok (.xor 11 12 13) := by decide +kernel
theorem test_decode_slt : decode 0b000000_01111_11000_01110_00000_101010#32 = .ok (.slt 14 15 24) := by decide +kernel
theorem test_decode_sll : decode 0b000000_00000_01001_01000_00100_000000#32 = .ok (.sll 8 9 4) := by decide +kernel
theorem test_decode_srl : decode 0b000000_00000_10001_10000_11111_000010#32 = .ok (.srl 16 17 31) := by decide +kernel
theorem test_decode_jr : decode 0b000000_11111_00000_00000_00000_001000#32 = .ok (.jr 31) := by decide +kernel
theorem test_decode_addi : decode 0b001000_00000_01000_0000000000000101#32 = .ok (.addi 8 0 5) := by decide +kernel
theorem test_decode_slti : decode 0b001010_00100_00001_1111111111111111#32 = .ok (.slti 1 4 0xFFFF) := by decide +kernel
theorem test_decode_lui : decode 0b001111_00000_01000_0001000000000000#32 = .ok (.lui 8 0x1000) := by decide +kernel
theorem test_decode_lw : decode 0b100011_11101_01000_0000000000000100#32 = .ok (.lw 8 4 29) := by decide +kernel
theorem test_decode_sw : decode 0b101011_11100_10111_1000000000000000#32 = .ok (.sw 23 0x8000 28) := by decide +kernel
theorem test_decode_beq : decode 0b000100_01000_01001_0000000000000011#32 = .ok (.beq 8 9 3) := by decide +kernel
theorem test_decode_bne : decode 0b000101_01000_00000_1111111111111100#32 = .ok (.bne 8 0 0xFFFC) := by decide +kernel
theorem test_decode_j : decode 0b000010_00000000000000000000001010#32 = .ok (.j 10) := by decide +kernel
theorem test_decode_jal : decode 0b000011_00000100000000000000000000#32 = .ok (.jal 0x100000) := by decide +kernel
theorem test_decode_nop_rs_ignored : decode 0b000000_11111_00000_00000_00000_000000#32 = .ok .nop := by decide +kernel
theorem test_decode_unknown_opcode : decode 0b111111_00000_00000_00000_00000_000000#32 = .error .unknownOpcode := by
  decide +kernel
theorem test_decode_unknown_funct : decode 0b000000_01001_01010_01000_00000_100001#32 = .error .unknownFunct := by
  decide +kernel
theorem test_decodeTableWord_add : decodeTableWord 32 0x012A4020 = some (.add 8 9 10) := by decide +kernel

/-! ### One step per instruction and agent (`95_test_vectors.md` sections 1 to 7) -/
theorem test_nop_encodes : encoderStep "  nop  # idle" = word 0x00000000#32 := (encoderStep_eq _).trans (by decide +kernel)
theorem test_nop_decodes : wordStep 0x03E00000#32 = text "nop" := wordStep_eq (by rfl)
theorem test_add_encodes : encoderStep "add $t0, $t1, $t2" = word 0x012A4020#32 :=
  (encoderStep_eq _).trans (by decide +kernel)
theorem test_add_decodes : wordStep 0x012A4060#32 = text "add $t0, $t1, $t2" := wordStep_eq (by rfl)
theorem test_sub_encodes : encoderStep "sub $s0, $s1, $s2" = word 0x02328022#32 :=
  (encoderStep_eq _).trans (by decide +kernel)
theorem test_sub_decodes : wordStep 0x01084022#32 = text "sub $t0, $t0, $t0" := wordStep_eq (by rfl)
theorem test_and_encodes : encoderStep "and $k1, $gp, $sp" = word 0x039DD824#32 :=
  (encoderStep_eq _).trans (by decide +kernel)
theorem test_and_decodes : wordStep 0x00A62024#32 = text "and $a0, $a1, $a2" := wordStep_eq (by rfl)
theorem test_or_encodes : encoderStep "or $fp, $ra, $zero" = word 0x03E0F025#32 :=
  (encoderStep_eq _).trans (by decide +kernel)
theorem test_or_decodes : wordStep 0x00611025#32 = text "or $v0, $v1, $at" := wordStep_eq (by rfl)
theorem test_xor_encodes : encoderStep "xor $a3, $a3, $a3" = word 0x00E73826#32 :=
  (encoderStep_eq _).trans (by decide +kernel)
theorem test_xor_decodes : wordStep 0x018D5826#32 = text "xor $t3, $t4, $t5" := wordStep_eq (by rfl)
theorem test_slt_encodes : encoderStep "slt $t6, $t7, $t8" = word 0x01F8702A#32 :=
  (encoderStep_eq _).trans (by decide +kernel)
theorem test_slt_decodes : wordStep 0x0108402A#32 = text "slt $t0, $t0, $t0" := wordStep_eq (by rfl)
theorem test_sll_encodes : encoderStep "sll $t0, $t1, -1" = word 0x000947C0#32 :=
  (encoderStep_eq _).trans (by decide +kernel)
theorem test_sll_decodes : wordStep 0x01094100#32 = text "sll $t0, $t1, 4" := wordStep_eq (by rfl)
theorem test_srl_encodes : encoderStep "srl $t0, $t1, 64" = word 0x00094002#32 :=
  (encoderStep_eq _).trans (by decide +kernel)
theorem test_srl_decodes : wordStep 0x00000002#32 = text "srl $zero, $zero, 0" := wordStep_eq (by rfl)
theorem test_jr_encodes : encoderStep "jr $t0" = word 0x01000008#32 := (encoderStep_eq _).trans (by decide +kernel)
theorem test_jr_decodes : wordStep 0x03FFFFC8#32 = text "jr $ra" := wordStep_eq (by rfl)
theorem test_addi_encodes : encoderStep "addi $t0, $t1, 40000" = word 0x21289C40#32 :=
  (encoderStep_eq _).trans (by decide +kernel)
theorem test_addi_decodes : wordStep 0x21289C40#32 = text "addi $t0, $t1, -25536" := wordStep_eq (by rfl)
theorem test_slti_encodes : encoderStep "slti $t0, $s0, 10" = word 0x2A08000A#32 :=
  (encoderStep_eq _).trans (by decide +kernel)
theorem test_slti_decodes : wordStep 0x2881FFFF#32 = text "slti $at, $a0, -1" := wordStep_eq (by rfl)
theorem test_lui_encodes : encoderStep "lui $t0, 65535" = word 0x3C08FFFF#32 := (encoderStep_eq _).trans (by decide +kernel)
theorem test_lui_decodes : wordStep 0x3FE8FFFF#32 = text "lui $t0, -1" := wordStep_eq (by rfl)
theorem test_lw_encodes : encoderStep "lw $t0, 65532($sp)" = word 0x8FA8FFFC#32 :=
  (encoderStep_eq _).trans (by decide +kernel)
theorem test_lw_decodes : wordStep 0x8FC8FFF8#32 = text "lw $t0, -8($fp)" := wordStep_eq (by rfl)
theorem test_sw_encodes : encoderStep "sw $zero, 32767($zero)" = word 0xAC007FFF#32 :=
  (encoderStep_eq _).trans (by decide +kernel)
theorem test_sw_decodes : wordStep 0xAF978000#32 = text "sw $s7, -32768($gp)" := wordStep_eq (by rfl)
theorem test_beq_encodes : encoderStep "beq $t0, $t1, 3" = word 0x11090003#32 := (encoderStep_eq _).trans (by decide +kernel)
theorem test_beq_decodes : wordStep 0x1000FFFF#32 = text "beq $zero, $zero, -1" := wordStep_eq (by rfl)
theorem test_bne_encodes : encoderStep "bne $s0, $s1, 100" = word 0x16110064#32 :=
  (encoderStep_eq _).trans (by decide +kernel)
theorem test_bne_decodes : wordStep 0x1500FFFC#32 = text "bne $t0, $zero, -4" := wordStep_eq (by rfl)
theorem test_j_encodes : encoderStep "j -1" = word 0x0BFFFFFF#32 := (encoderStep_eq _).trans (by decide +kernel)
theorem test_j_decodes : wordStep 0x0BFFFFFF#32 = text "j 67108863" := wordStep_eq (by rfl)
theorem test_jal_encodes : encoderStep "jal -4" = word 0x0FFFFFFC#32 := (encoderStep_eq _).trans (by decide +kernel)
theorem test_jal_decodes : wordStep 0x0FFFFFFC#32 = text "jal 67108860" := wordStep_eq (by rfl)

/-! ### The front end (`95_test_vectors.md` section 3) -/

theorem test_skip_empty : encoderStep " \t\r\n" = skip := (encoderStep_eq _).trans (by decide +kernel)
theorem test_skip_comment : encoderStep "   # comment" = skip := (encoderStep_eq _).trans (by decide +kernel)
theorem test_skip_directive : encoderStep "  .word 5, 6" = skip := (encoderStep_eq _).trans (by decide +kernel)
theorem test_skip_label : encoderStep "loop:   # top" = skip := (encoderStep_eq _).trans (by decide +kernel)
theorem test_label_with_instruction : encoderStep "loop: add $t0, $t1, $t2" = error .unknownMnemonic :=
  (encoderStep_eq _).trans (by decide +kernel)
theorem test_tight_commas_and_comment : encoderStep "\tadd $t0,,$t1 ,$t2#sum" = word 0x012A4020#32 :=
  (encoderStep_eq _).trans (by decide +kernel)
theorem test_parentheses_are_delimiters : encoderStep "lw $t0, (4)$sp" = word 0x8FA80004#32 :=
  (encoderStep_eq _).trans (by decide +kernel)
theorem test_no_token : encoderStep ", ()" = error .unknownMnemonic := (encoderStep_eq _).trans (by decide +kernel)
theorem test_upper_case : encoderStep "NOP" = error .unknownMnemonic := (encoderStep_eq _).trans (by decide +kernel)
theorem test_nop_with_operand : encoderStep "nop $t0" = error .unknownMnemonic :=
  (encoderStep_eq _).trans (by decide +kernel)
theorem test_count_before_register : encoderStep "add $zz, $t1" = error .malformedOperand :=
  (encoderStep_eq _).trans (by decide +kernel)
theorem test_first_operand_first : encoderStep "add $zz, 5, $t1" = error .unknownRegister :=
  (encoderStep_eq _).trans (by decide +kernel)
theorem test_literal_before_register : encoderStep "lw $t0, x($zz)" = error .malformedOperand :=
  (encoderStep_eq _).trans (by decide +kernel)
theorem test_numeric_register : encoderStep "add $8, $9, $10" = error .unknownRegister :=
  (encoderStep_eq _).trans (by decide +kernel)
theorem test_alias_register : encoderStep "jr $s8" = error .unknownRegister := (encoderStep_eq _).trans (by decide +kernel)
theorem test_no_sigil : encoderStep "jr 31" = error .malformedOperand := (encoderStep_eq _).trans (by decide +kernel)
theorem test_hexadecimal_literal : encoderStep "addi $t0, $t1, 0x10" = error .malformedOperand :=
  (encoderStep_eq _).trans (by decide +kernel)
theorem test_leading_zeros : encoderStep "addi $t0, $t1, 007" = word 0x21280007#32 :=
  (encoderStep_eq _).trans (by decide +kernel)
theorem test_big_literal : encoderStep "addi $t0, $t1, 4294967301" = word 0x21280005#32 :=
  (encoderStep_eq _).trans (by decide +kernel)

/-! ### The Decoder's lines (`95_test_vectors.md` section 6.2) -/

theorem test_decoder_trims : decoderStep " 00000011111000000000000000001000\r\n" = text "jr $ra" := decoderStep_eq (by rfl)
theorem test_decoder_skips_blank : decoderStep "   " = skip := decoderStep_eq (by rfl)
theorem test_decoder_error : wordStep 0x04000001#32 = error .unknownOpcode := wordStep_eq (by rfl)

/-- The sentinel is skipped, whatever it is. -/
theorem test_decoder_skips_sentinel : decodeLine Tables.standard sentinelLine = .ok .skip := by
  have h := sentinelLine_admissible
  simp only [sentinelAdmissible, Bool.and_eq_true, Bool.not_eq_true', beq_iff_eq, List.isEmpty_eq_false_iff] at h
  have hs := (isSentinel_iff sentinelLine).2 rfl
  simp [decodeLine, decoderFetch, h.1.2, h.1.1, hs, Except.map, Fetched.result]

/-- Two lines outside the contract: whatever the sentinel is, one of them is not it. -/
theorem some_line_is_not_a_word : ∃ l : Line, trim l ≠ [] ∧ trim l ≠ sentinelLine ∧ (∀ w, trim l ≠ wordText w)
    ∧ textWord (trim l) = none := by
  have short : ∀ t : Line, t.length ≠ 32 → ∀ w, t ≠ wordText w := fun t ht w e => ht (by rw [e]; simp [wordText])
  by_cases h : "0x012A4020".toList = sentinelLine
  · refine ⟨"add $t0, $t1, $t2".toList, by decide +kernel, ?_, short _ (by decide +kernel), by decide +kernel⟩
    rw [← h]; decide +kernel
  · refine ⟨"0x012A4020".toList, by decide +kernel, ?_, short _ (by decide +kernel), by decide +kernel⟩
    have : trim "0x012A4020".toList = "0x012A4020".toList := by decide +kernel
    rwa [this]

/-- It is refused, and by that name. -/
theorem test_decoder_refuses : ∃ l : Line, step (presented [⟨.decoder, l⟩]) = .refused .notAWord := by
  obtain ⟨l, h1, h2, -, h3⟩ := some_line_is_not_a_word
  have hs : isSentinel (trim l) = false := by
    rw [← Bool.not_eq_true, isSentinel_iff]; exact h2
  refine ⟨l, ?_⟩
  rw [step_cons _ _ _ standard_wf rfl, transact_decoder]
  simp [decodeLine, decoderFetch, h1, hs, h3, Except.map]

/-! ### Codec primitives (`95_test_vectors.md` section 2) -/

theorem test_pack_wraps : pack (-1) 5 = 31#5 ∧ pack 33 5 = 1#5 ∧ pack 67108874 26 = 10#26 := by decide
theorem test_unpack_signed : unpackSigned 0x9C40#16 = -25536 ∧ unpackUnsigned 0x9C40#16 = 40000 := by decide
theorem test_wordText : wordText 0x012A4020#32 = "00000001001010100100000000100000".toList := by decide +kernel
theorem test_error_codes : errorCode .unknownRegister = 1 ∧ errorCode .malformedOperand = 5 := by decide

/-! ### The table word handed over by `withFetchWord` is the one the next step runs -/

theorem test_withFetchWord_after_reset :
    returned (step (State.reset.withFetchWord 32 0x20080005)) = text "addi $t0, $zero, 5" := by decide +kernel

/-! ### Witnesses: for each statement with hypotheses, a concrete case that meets them, clause by clause -/

/-- Tables in which `lw` has the R format's opcode 0 (U18). -/
def brokenTables : Tables := { Tables.standard with iTable := { ITable.standard with lw := 0#6 } }

theorem brokenTables_not_wf : brokenTables.wf = false := by decide +kernel

theorem regName_example : regName Tables.standard 8 = "t0".toList := by decide +kernel

theorem no_register_t10 : ∀ i, regName Tables.standard i ≠ "t10".toList :=
  (regIndex_eq_error.1 (show regIndex Tables.standard "t10".toList = .error .unknownRegister by decide +kernel)).2

theorem no_register_empty : ∀ i, regName Tables.standard i ≠ [] :=
  (regIndex_eq_error.1 (show regIndex Tables.standard [] = .error .unknownRegister by decide +kernel)).2

theorem witness_TablesAreNeverMutated : ∃ s', step State.reset = .next s' := ⟨_, step_nil _ standard_wf rfl⟩

theorem witness_ResultDependsOnLineAndTablesOnly :
    let s₁ := presented [encoderLine "j 10", decoderWord 0]
    let s₂ : State := ⟨Tables.standard, [encoderLine "j 10"], [.skip]⟩
    s₁.tables = s₂.tables ∧ s₁.pending = encoderLine "j 10" :: [decoderWord 0] ∧ s₂.pending = encoderLine "j 10" :: [] :=
  ⟨rfl, rfl, rfl⟩

/-- An accepted line, an error, a skip and a word. -/
def batch : State := presented [encoderLine "j 10", encoderLine "mul $t0, $t1, $t2", encoderLine "loop:", decoderWord 8]

def batchResults : List Result :=
  [.ok (.word 0x0800000A#32), .error .unknownMnemonic, .skip, .ok (.text "jr $zero".toList)]

theorem batch_results : batch.pending.mapM (transact batch.tables) = .ok batchResults := by rfl

theorem witness_BatchReturnsOneResultPerLine :
    batch.tables.wf = true ∧ batch.pending.mapM (transact batch.tables) = .ok batchResults := ⟨standard_wf, batch_results⟩

theorem batch_runs : ∃ t, Sys2Proof.core.run 4 batch = .next t ∧ t.output = batchResults :=
  next_of_returned (show returned (Sys2Proof.core.run 4 batch) = some batchResults by decide +kernel)

theorem batch_runs_reversed : ∃ t, Sys2Proof.core.run 4 (presented batch.pending.reverse) = .next t ∧ t.output = batchResults.reverse :=
  next_of_returned
    (show returned (Sys2Proof.core.run 4 (presented batch.pending.reverse)) = some batchResults.reverse by decide +kernel)

theorem witness_PresentationOrderChangesNoResult : ∃ s₁ s₂ t₁ t₂ : State, s₁.tables = s₂.tables ∧ s₁.tables.wf = true
    ∧ s₁.output = [] ∧ s₂.output = [] ∧ s₁.pending.Perm s₂.pending ∧ s₁.pending ≠ s₂.pending
    ∧ Sys2Proof.core.run s₁.pending.length s₁ = .next t₁ ∧ Sys2Proof.core.run s₂.pending.length s₂ = .next t₂ := by
  obtain ⟨t₁, h₁, -⟩ := batch_runs
  obtain ⟨t₂, h₂, -⟩ := batch_runs_reversed
  exact ⟨batch, presented batch.pending.reverse, t₁, t₂, rfl, standard_wf, rfl, rfl, (List.reverse_perm _).symm, by decide, h₁, h₂⟩

theorem witness_DriverWritesOneLinePerUnskippedInput : ∃ s t : State, s.tables.wf = true ∧ s.output = []
    ∧ Sys2Proof.core.run s.pending.length s = .next t := by
  obtain ⟨t, h, -⟩ := batch_runs
  exact ⟨batch, t, standard_wf, rfl, h⟩

theorem witness_SafeRunsNeverStop : batch.Safe := by
  refine ⟨standard_wf, fun r hr => ?_⟩
  simp only [batch, presented, List.mem_cons, List.not_mem_nil, or_false] at hr
  rcases hr with rfl | rfl | rfl | rfl
  · trivial
  · trivial
  · trivial
  · exact .inr (.inr (by decide +kernel))

/-- Both ways to be refused. -/
theorem witness_StepRefusesExactlyOutsideTheContract :
    (∃ s : State, s.tables.wf = false) ∧ ∃ (s : State) (l : Line) (rest : List Request), s.tables.wf = true
      ∧ s.pending = ⟨.decoder, l⟩ :: rest ∧ trim l ≠ [] ∧ trim l ≠ sentinelLine ∧ ∀ w, trim l ≠ wordText w := by
  obtain ⟨l, h1, h2, h3, -⟩ := some_line_is_not_a_word
  exact ⟨⟨⟨brokenTables, [], []⟩, brokenTables_not_wf⟩, presented [⟨.decoder, l⟩], l, [], standard_wf, rfl, h1, h2, h3⟩

theorem witness_StepRunsTheInstructionOnTheLine :
    (trim (wordText 0x0800000A#32) = wordText 0x0800000A#32 ∧ decodeWith Tables.standard 0x0800000A#32 = .ok (.j 10))
      ∧ trim (stripComment " nop # idle".toList) = "nop".toList
      ∧ (classify "lw $t0, 4($sp)".toList = .operation (.i .lw) ["$t0".toList, "4".toList, "$sp".toList]
        ∧ readOperands Tables.standard (.i .lw) ["$t0".toList, "4".toList, "$sp".toList] = .ok (.lw 8 4 29))
      ∧ (State.reset.tables = Tables.standard ∧ decodeTableWord 32 0x0800000A = some (.j 10)) :=
  ⟨⟨by decide +kernel, by decide +kernel⟩, by decide +kernel, ⟨by decide +kernel, by decide +kernel⟩, rfl, by decide +kernel⟩

theorem witness_EarlyReductionChangesNoField : digitsValue? 0 "67108864".toList = some 67108864 ∧ (26 : Nat) ≤ 26 :=
  ⟨by decide +kernel, le_refl _⟩

theorem witness_WordTextIsInverted : textWord "00000001001010100100000000100000".toList = some 0x012A4020#32 := by decide +kernel

theorem witness_UnpackingIsBaseTwo : 0 < 1 ∧ (1#1).getLsbD (1 - 1) = true := by decide
theorem witness_PackUnpackLaws : 0 < 1 := by decide

theorem witness_IntegerLiteralsAreBaseTen : intOperand "--5".toList = .error .malformedOperand := by decide +kernel

theorem witness_NumeralsRoundTrip : intOperand "-0".toList = .ok 0 ∧ intOperand "007".toList = .ok 7
    ∧ intOperand "0".toList = .ok 0 := by decide +kernel

theorem witness_RegisterTableIsABijection : Tables.standard.wf = true
    ∧ regIndex Tables.standard "ra".toList = .ok 31 ∧ (∀ i, regName Tables.standard i ≠ "t10".toList)
    ∧ regName Tables.standard 0 = regName Tables.standard 0 :=
  ⟨standard_wf, by decide +kernel, no_register_t10, rfl⟩

theorem witness_NopLineGivesTheZeroWord :
    trim (stripComment "nop # wait".toList) = "nop".toList
      ∧ encodeLine Tables.standard "nop $t0".toList ≠ .skip
      ∧ trim (stripComment "nop $t0".toList) ≠ "nop".toList
      ∧ tokens (trim (stripComment "nop $t0".toList)) = "nop".toList :: ["$t0".toList]
      ∧ encodeLine Tables.standard "NOP".toList ≠ .skip ∧ trim (stripComment "NOP".toList) ≠ "nop".toList
      ∧ tokens (trim (stripComment "NOP".toList)) = "NOP".toList :: [] := by decide +kernel

theorem witness_TokensAreSplitAtDelimiters :
    ')' ∈ [',', '(', ')', '\t', '\n', '\x0b', '\x0c', '\r', ' '] ∧ "$t0".toList ≠ []
      ∧ ∀ c ∈ "$t0".toList, c ∉ [',', '(', ')', '\t', '\n', '\x0b', '\x0c', '\r', ' '] := by simp

theorem witness_OperandCountIsCheckedFirst :
    ["$zz".toList, "$t1".toList].length ≠ (if Mnemonic.r .add ∈ [.r .jr, .j .j, .j .jal] then 1 else if Mnemonic.r .add = .i .lui then 2 else 3) := by
  decide

theorem witness_RegisterOperandsNeedSigilAndName :
    Tables.standard.wf = true ∧ "t0".toList.head? ≠ some '$' ∧ (∀ i, regName Tables.standard i ≠ [])
      ∧ regOperand Tables.standard "$t0".toList = .ok 8 :=
  ⟨standard_wf, by decide, no_register_empty, by decide +kernel⟩

theorem witness_FirstFailingOperandIsReported :
    ["$t0".toList, "x".toList, "$zz".toList].length = (operandSchema (.i .lw)).length := by decide

theorem witness_EachAgentHasItsOwnErrors :
    encodeLine Tables.standard "add $8, $9, $10".toList = .error .unknownRegister
      ∧ decodeWord Tables.standard 0x04000000#32 = .error .unknownOpcode
      ∧ decodeLine Tables.standard (wordText 0x00000001#32) = .ok (.error .unknownFunct) :=
  ⟨by decide +kernel, by decide +kernel, by rfl⟩

theorem witness_EncoderProducesCanonicalWords :
    Tables.standard.wf = true ∧ encodeLine Tables.standard "sll $zero, $zero, 32".toList = .ok (.word 0#32) :=
  ⟨standard_wf, by decide +kernel⟩

/-- The `nop` word with the largest rs, the literal with a comment, and a `nop` with something after it. -/
theorem witness_NopTranslatesBothWays : Tables.standard.wf = true
    ∧ (0x03E00000#32).extractLsb 31 26 = 0#6 ∧ (0x03E00000#32).extractLsb 5 0 = 0#6 ∧ (0x03E00000#32).extractLsb 20 16 = 0#5
    ∧ (0x03E00000#32).extractLsb 15 11 = 0#5 ∧ (0x03E00000#32).extractLsb 10 6 = 0#5
    ∧ trim (stripComment "  nop  # idle".toList) = "nop".toList
    ∧ (encodeLine Tables.standard "nop nop".toList ≠ .skip ∧ trim (stripComment "nop nop".toList) ≠ "nop".toList
      ∧ tokens (trim (stripComment "nop nop".toList)) = "nop".toList :: ["nop".toList]) :=
  ⟨standard_wf, by decide, by decide, by decide, by decide, by decide, by decide +kernel, by decide +kernel⟩

theorem witness_AddTranslatesBothWays : Tables.standard.wf = true
    ∧ (0x03FFFFE0#32).extractLsb 31 26 = 0#6 ∧ (0x03FFFFE0#32).extractLsb 5 0 = 32#6 :=
  ⟨standard_wf, by decide, by decide⟩

theorem witness_ThreeRegisterInstructionsTranslateBothWays : Tables.standard.wf = true
    ∧ (ROp.slt, "slt") ∈ [(ROp.sub, "sub"), (.and, "and"), (.or, "or"), (.xor, "xor"), (.slt, "slt")]
    ∧ (0x0108402A#32).extractLsb 31 26 = 0#6 ∧ (0x0108402A#32).extractLsb 5 0 = Tables.standard.rTable.code .slt :=
  ⟨standard_wf, by simp, by decide, by decide⟩

/-- Each of the three fields alone makes it no `nop`. -/
theorem witness_SllTranslatesBothWays : Tables.standard.wf = true
    ∧ ((0x00010000#32).extractLsb 31 26 = 0#6 ∧ (0x00010000#32).extractLsb 5 0 = 0#6 ∧ (0x00010000#32).extractLsb 20 16 ≠ 0#5)
    ∧ ((0x00000800#32).extractLsb 31 26 = 0#6 ∧ (0x00000800#32).extractLsb 5 0 = 0#6 ∧ (0x00000800#32).extractLsb 15 11 ≠ 0#5)
    ∧ ((0x00000040#32).extractLsb 31 26 = 0#6 ∧ (0x00000040#32).extractLsb 5 0 = 0#6 ∧ (0x00000040#32).extractLsb 10 6 ≠ 0#5) :=
  ⟨standard_wf, by decide, by decide, by decide⟩

theorem witness_SrlTranslatesBothWays : Tables.standard.wf = true
    ∧ (0x00000002#32).extractLsb 31 26 = 0#6 ∧ (0x00000002#32).extractLsb 5 0 = Tables.standard.rTable.srl :=
  ⟨standard_wf, by decide, by decide⟩

theorem witness_JrTranslatesBothWays : Tables.standard.wf = true
    ∧ (0x03FFFFC8#32).extractLsb 31 26 = 0#6 ∧ (0x03FFFFC8#32).extractLsb 5 0 = Tables.standard.rTable.jr :=
  ⟨standard_wf, by decide, by decide⟩

theorem witness_AddiTranslatesBothWays : Tables.standard.wf = true ∧ (0x20008000#32).extractLsb 31 26 = 8#6 :=
  ⟨standard_wf, by decide⟩

theorem witness_SltiTranslatesBothWays : Tables.standard.wf = true
    ∧ (0x28000000#32).extractLsb 31 26 = Tables.standard.iTable.slti := ⟨standard_wf, by decide⟩

theorem witness_BranchesTranslateBothWays : Tables.standard.wf = true
    ∧ (IOp.bne, "bne") ∈ [(IOp.beq, "beq"), (.bne, "bne")]
    ∧ (0x14000000#32).extractLsb 31 26 = Tables.standard.iTable.code .bne := ⟨standard_wf, by simp, by decide⟩

theorem witness_LuiTranslatesBothWays : Tables.standard.wf = true
    ∧ (0x3FFFFFFF#32).extractLsb 31 26 = Tables.standard.iTable.lui := ⟨standard_wf, by decide⟩

theorem witness_LoadAndStoreTranslateBothWays : Tables.standard.wf = true
    ∧ (IOp.sw, "sw") ∈ [(IOp.lw, "lw"), (.sw, "sw")]
    ∧ (0xAFFFFFFF#32).extractLsb 31 26 = Tables.standard.iTable.code .sw := ⟨standard_wf, by simp, by decide⟩

theorem witness_JumpTranslatesBothWays : Tables.standard.wf = true ∧ (0x0BFFFFFF#32).extractLsb 31 26 = 2#6 :=
  ⟨standard_wf, by decide⟩

theorem witness_JumpAndLinkTranslatesBothWays : Tables.standard.wf = true
    ∧ (0x0FFFFFFF#32).extractLsb 31 26 = Tables.standard.jTable.jal := ⟨standard_wf, by decide⟩

/-- A line of either agent in front: the hypotheses of the three statements that the instructions complete. -/
theorem witness_RFormatInstructionsComplete :
    (presented [encoderLine "nop"]).pending = ⟨.encoder, "nop".toList⟩ :: []
      ∧ (presented [decoderWord 0]).pending = ⟨.decoder, wordText 0#32⟩ :: [] := ⟨rfl, rfl⟩

theorem witness_IFormatInstructionsComplete :
    (presented [encoderLine "lui $gp, 0"]).pending = ⟨.encoder, "lui $gp, 0".toList⟩ :: []
      ∧ (presented [decoderWord 0x3C1C0000]).pending = ⟨.decoder, wordText 0x3C1C0000#32⟩ :: [] := ⟨rfl, rfl⟩

theorem witness_JFormatInstructionsComplete :
    (presented [encoderLine "jal 0"]).pending = ⟨.encoder, "jal 0".toList⟩ :: []
      ∧ (presented [decoderWord 0x0C000000]).pending = ⟨.decoder, wordText 0x0C000000#32⟩ :: [] := ⟨rfl, rfl⟩

theorem witness_InstructionsChangeOnlyTheirResult : State.reset.pending = [] ∧ (presented [encoderLine "nop"]).pending ≠ [] :=
  ⟨rfl, by decide⟩

theorem witness_DecodeLineFollowsItsInputTest :
    trim " \r\n".toList = [] ∧ trim sentinelLine = sentinelLine ∧ trim (wordText 0#32) = wordText 0#32
      ∧ ∃ l : Line, trim l ≠ [] ∧ trim l ≠ sentinelLine ∧ ∀ w, trim l ≠ wordText w := by
  obtain ⟨l, h1, h2, h3, -⟩ := some_line_is_not_a_word
  have h := sentinelLine_admissible
  simp only [sentinelAdmissible, Bool.and_eq_true, Bool.not_eq_true', beq_iff_eq, List.isEmpty_eq_false_iff] at h
  exact ⟨by decide +kernel, h.1.2, by decide +kernel, l, h1, h2, h3⟩

theorem witness_FormatTablesAreBijections : Tables.standard.wf = true := standard_wf

/-- A `jr` word and the same with rt, rd and shamt all ones. -/
theorem witness_UnusedFieldsAreNotLookedAt : Tables.standard.wf = true
    ∧ decodeWith Tables.standard 0x03E00008#32 = .ok (.jr 31)
    ∧ (0x03FFFFC8#32 &&& ~~~0x001FFFC0#32) = (0x03E00008#32 &&& ~~~0x001FFFC0#32) :=
  ⟨standard_wf, by decide +kernel, by decide⟩

theorem witness_DecodeInvertsEncode : Tables.standard.wf = true ∧ (Instr.sll 0 0 1).wellFormed = true := ⟨standard_wf, by decide⟩

theorem witness_DecodedTextReencodesToTheCanonicalWord :
    decodeWord Tables.standard 0x3FE8FFFF#32 = .ok (.text "lui $t0, -1".toList) := by decide +kernel

theorem witness_AcceptedLinesComeBackCanonical :
    decodeWord Tables.standard 0x012A4060#32 = .ok (.text "add $t0, $t1, $t2".toList)
      ∧ encodeLine Tables.standard "lw $t0 4 $sp".toList = .ok (.word 0x8FA80004#32) := by decide +kernel

theorem witness_OutputsStayCanonical : (presented [decoderWord 0]).OutputsCanonical
    ∧ ∃ s', step (presented [decoderWord 0]) = .next s' ∧ s'.output = [.ok (.text "nop".toList)] :=
  ⟨⟨rfl, by simp [presented], by simp [presented]⟩,
    next_of_returned (show wordStep 0 = text "nop" from wordStep_eq (by rfl))⟩

end Sys2Proof.Tests
end

namespace Sys2Proof.Machine

/-! ### The Register Table read both ways (`10_state.md` R11, R12) -/

/-- Reading an index off its name is a left inverse of naming it, so the name determines the index. -/
theorem regName_injective {T : Tables} (hT : T.wf = true) : Function.Injective (regName T) := by
  intro i j hname
  have hindex : (Except.ok i : Except ErrorKind RegIx) = .ok j := by
    rw [← regIndex_regName hT i, hname, regIndex_regName hT j]
  exact Except.ok.inj hindex

/-- Settles O18: each clause is one direction of the lookup; injectivity follows from the left inverse. -/
theorem registerTableIsABijection : Obligations.RegisterTableIsABijection := by
  intro T hT
  refine ⟨?nameThenIndex, ?indexThenName, ?unknownName, ?distinctNames⟩
  case nameThenIndex => exact regIndex_regName hT
  case indexThenName => exact fun _ _ hindex => regName_of_regIndex hindex
  case unknownName => exact fun _ hmiss => regIndex_eq_error.2 ⟨rfl, hmiss⟩
  case distinctNames => exact fun _ _ hname => regName_injective hT hname

end Sys2Proof.Machine

namespace Sys2Proof.Machine

/-! ### Packing and unpacking a field (`40_bitfield_codec.md` R53 to R55) -/

@[simp] theorem unpackUnsigned_pack (v : Int) (w : Nat) : unpackUnsigned (pack v w) = v % 2 ^ w := by
  have hnonneg : 0 ≤ v % 2 ^ w := Int.emod_nonneg v (by positivity)
  simp [unpackUnsigned, pack, BitVec.toNat_ofInt, hnonneg]

/-- A field is determined by its unsigned value, which is how R53 can define `pack` by that value alone. -/
theorem unpackUnsigned_inj {w : Nat} {f g : BitVec w} : unpackUnsigned f = unpackUnsigned g ↔ f = g :=
  Int.ofNat_inj.trans BitVec.toNat_inj

theorem pack_eq_pack_iff {v v' : Int} {w : Nat} : pack v w = pack v' w ↔ v % 2 ^ w = v' % 2 ^ w := by
  rw [← unpackUnsigned_inj, unpackUnsigned_pack, unpackUnsigned_pack]

/-- Settles O10: both clauses read `pack` through the unsigned value of the field. -/
theorem packKeepsTheResidue : Obligations.PackKeepsTheResidue :=
  fun v _ w => ⟨unpackUnsigned_pack v w, pack_eq_pack_iff⟩

/-- The low `w` bits of a natural number in base 2; each further bit adds its own power of two. -/
theorem mod_two_pow_eq_sum_testBit (x w : Nat) :
    x % 2 ^ w = ∑ i ∈ Finset.range w, if x.testBit i then 2 ^ i else 0 := by
  induction w with
  | zero => simp [Nat.mod_one]
  | succ w ih =>
    have hbit : 2 ^ w * (x / 2 ^ w % 2) = if x.testBit w then 2 ^ w else 0 := by
      rcases Nat.mod_two_eq_zero_or_one (x / 2 ^ w) with hdigit | hdigit <;>
        simp [Nat.testBit_eq_decide_div_mod_eq, hdigit]
    rw [Finset.sum_range_succ, ← ih, Nat.mod_pow_succ, hbit]

theorem unpackUnsigned_eq_sum {w : Nat} (f : BitVec w) :
    unpackUnsigned f = ∑ i ∈ Finset.range w, (if f.getLsbD i then 2 ^ i else 0) := by
  have hsum := mod_two_pow_eq_sum_testBit f.toNat w
  rw [Nat.mod_eq_of_lt f.isLt] at hsum
  rw [unpackUnsigned, hsum]
  push_cast
  rfl

theorem unpackUnsigned_nonneg {w : Nat} (f : BitVec w) : 0 ≤ unpackUnsigned f := Int.natCast_nonneg _

theorem unpackUnsigned_lt {w : Nat} (f : BitVec w) : unpackUnsigned f < 2 ^ w := by
  unfold unpackUnsigned
  exact_mod_cast f.isLt

theorem unpackSigned_eq_sub {w : Nat} (f : BitVec w) :
    unpackSigned f = unpackUnsigned f - (if f.getLsbD (w - 1) then 2 ^ w else 0) := by
  rw [unpackSigned, unpackUnsigned, BitVec.toInt_eq_msb_cond, BitVec.msb_eq_getLsbD_last]
  split <;> simp

/-- Settles O11: the sum is the base-2 expansion, and the ranges are those of the two readings of a `w`-bit vector. -/
theorem unpackingIsBaseTwo : Obligations.UnpackingIsBaseTwo := by
  intro w f
  have hsigned : -2 ^ (w - 1) ≤ unpackSigned f ∧ unpackSigned f ≤ 2 ^ (w - 1) - 1 :=
    ⟨BitVec.le_toInt f, Int.le_sub_one_of_lt BitVec.toInt_lt⟩
  exact ⟨unpackUnsigned_eq_sum f, unpackUnsigned_nonneg f, Int.le_sub_one_of_lt (unpackUnsigned_lt f),
    unpackSigned_eq_sub f, fun _ => hsigned⟩

/-! ### The text of a word (`40_bitfield_codec.md` R56, R57) -/

@[simp] theorem length_wordText (w : Word) : (wordText w).length = 32 := by simp [wordText]

theorem getElem?_wordText (w : Word) {i : Nat} (hi : i < 32) :
    (wordText w)[i]? = some (if w.getLsbD (31 - i) then '1' else '0') := by
  simp [wordText, hi]

theorem wordText_injective : Function.Injective wordText := by
  intro w w' htext
  refine BitVec.eq_of_getLsbD_eq fun i hi => ?_
  have hchar := congrArg (·[31 - i]?) htext
  simp only [getElem?_wordText _ (show 31 - i < 32 by omega), show 31 - (31 - i) = i by omega] at hchar
  revert hchar
  cases w.getLsbD i <;> cases w'.getLsbD i <;> simp

theorem isWordText_iff {t : Line} : isWordText t = true ↔ t.length = 32 ∧ ∀ c ∈ t, c = '0' ∨ c = '1' := by
  simp [isWordText]

theorem isWordText_wordText (w : Word) : isWordText (wordText w) = true := by
  refine isWordText_iff.2 ⟨length_wordText w, fun c hc => ?_⟩
  obtain ⟨i, -, rfl⟩ := List.mem_map.1 hc
  split
  · exact .inr rfl
  · exact .inl rfl

theorem exists_textWord_iff {t : Line} : (∃ w, textWord t = some w) ↔ isWordText t = true := by
  unfold textWord
  split <;> simp_all

theorem isWordText_of_textWord {t : Line} {w : Word} (h : textWord t = some w) : isWordText t = true :=
  exists_textWord_iff.1 ⟨w, h⟩

/-- The bits of the word read off a text (R57). -/
theorem getLsbD_of_textWord {t : Line} {w : Word} (h : textWord t = some w) {i : Nat} (hi : i < t.length) :
    w.getLsbD (31 - i) = (t[i] == '1') := by
  have hdom := isWordText_of_textWord h
  obtain ⟨hlen, -⟩ := isWordText_iff.1 hdom
  simp only [textWord, hdom, if_true, Option.some.injEq] at h
  subst h
  have hpos : 31 - (31 - i) = i := by omega
  have hlow : 31 - i < 32 := by omega
  simp [hlen, hpos, hlow]

theorem wordText_of_textWord {t : Line} {w : Word} (h : textWord t = some w) : wordText w = t := by
  obtain ⟨hlen, hbits⟩ := isWordText_iff.1 (isWordText_of_textWord h)
  refine List.ext_getElem? fun i => ?_
  by_cases hi : i < t.length
  · rw [getElem?_wordText w (hlen ▸ hi), getLsbD_of_textWord h hi, List.getElem?_eq_getElem hi]
    rcases hbits t[i] (List.getElem_mem hi) with hc | hc <;> simp [hc]
  · rw [List.getElem?_eq_none (by simpa [hlen] using hi), List.getElem?_eq_none (by simpa using hi)]

/-- A word's text is read as some word with the same text, and the text determines the word. -/
@[simp] theorem textWord_wordText (w : Word) : textWord (wordText w) = some w := by
  obtain ⟨w', hread⟩ := exists_textWord_iff.2 (isWordText_wordText w)
  rw [hread, wordText_injective (wordText_of_textWord hread)]

/-- Settles O14: reading is a left inverse of writing on every word, and a right inverse on the 32-character bit strings. -/
theorem wordTextIsInverted : Obligations.WordTextIsInverted := by
  refine ⟨fun w => ⟨?length, ?characters, ?inverse⟩, ?converse, ?domain⟩
  case length => exact length_wordText w
  case characters => exact fun _ hi => getElem?_wordText w hi
  case inverse => exact textWord_wordText w
  case converse => exact fun _ _ hread => wordText_of_textWord hread
  case domain => exact fun _ => exists_textWord_iff.trans isWordText_iff

end Sys2Proof.Machine

namespace Sys2Proof.Machine

/-! ### A step as a function of the line in front and the tables (`41_encoder_frontend.md` R77, `45_decoder.md` R108) -/

/-- A transaction with a result answers the line in front and leaves everything else as it was. -/
theorem step_of_transact_ok {s : State} {q : Request} {rest : List Request} {r : Result} (hT : s.tables.wf = true)
    (hq : s.pending = q :: rest) (hr : transact s.tables q = .ok r) :
    step s = .next ⟨s.tables, rest, s.output ++ [r]⟩ := by
  rw [step_cons s q rest hT hq, hr, ← deliver_cons s r q rest hq]

theorem step_of_transact_error {s : State} {q : Request} {rest : List Request} {e : Refusal} (hT : s.tables.wf = true)
    (hq : s.pending = q :: rest) (he : transact s.tables q = .error e) : step s = .refused e := by
  rw [step_cons s q rest hT hq, he]

/-- Settles O3: what a step delivers or refuses is read off the tables and `transact` alone, which both states share. -/
theorem resultDependsOnLineAndTablesOnly : Obligations.ResultDependsOnLineAndTablesOnly := by
  intro s₁ s₂ q rest₁ rest₂ htables hq₁ hq₂
  cases hT : s₁.tables.wf with
  | false => exact .inr ⟨.tablesBroken, step_broken s₁ hT, step_broken s₂ (htables ▸ hT)⟩
  | true =>
    cases hq : transact s₁.tables q with
    | ok r => exact .inl ⟨r, step_of_transact_ok hT hq₁ hq, step_of_transact_ok (htables ▸ hT) hq₂ (htables ▸ hq)⟩
    | error e =>
      exact .inr ⟨e, step_of_transact_error hT hq₁ hq, step_of_transact_error (htables ▸ hT) hq₂ (htables ▸ hq)⟩

/-! ### Register operands (`41_encoder_frontend.md` R73) -/

/-- Behind the sigil a register token is looked up in the Register Table. -/
@[simp] theorem regOperand_sigil_cons (T : Tables) (n : Line) : regOperand T (sigil :: n) = regIndex T n := by
  simp [regOperand]

theorem regOperand_of_head?_ne_sigil (T : Tables) {tok : Token} (h : tok.head? ≠ some sigil) :
    regOperand T tok = .error .malformedOperand := by
  cases tok with
  | nil => rfl
  | cons c n =>
    have hc : c ≠ sigil := by simpa using h
    simp [regOperand, hc]

/-- Only a register's own text reads as that register; the converse, for admissible tables, is `regOperand_regText`. -/
theorem eq_regText_of_regOperand {T : Tables} {tok : Token} {i : RegIx} (h : regOperand T tok = .ok i) :
    tok = regText T i := by
  by_cases hsigil : tok.head? = some sigil
  · obtain ⟨n, rfl⟩ := List.head?_eq_some_iff.1 hsigil
    rw [regOperand_sigil_cons] at h
    rw [regText, regName_of_regIndex h]
  · rw [regOperand_of_head?_ne_sigil T hsigil] at h
    cases h

/-- Settles O26: a token has the sigil in front or not, and behind it the lookup of R12 decides. -/
theorem registerOperandsNeedSigilAndName : Obligations.RegisterOperandsNeedSigilAndName := by
  intro T hT
  refine ⟨?registerText, ?noSigil, ?unknownName, ?onlyRegisterText⟩
  case registerText => exact regOperand_regText hT
  case noSigil => exact fun _ hhead => regOperand_of_head?_ne_sigil T hhead
  case unknownName =>
    intro n hmiss
    exact (regOperand_sigil_cons T n).trans (regIndex_eq_error.2 ⟨rfl, hmiss⟩)
  case onlyRegisterText => exact fun _ _ hread => eq_regText_of_regOperand hread

end Sys2Proof.Machine

namespace Sys2Proof.Machine

/-! ### The Encoder's result for each class of a line (`41_encoder_frontend.md` R65 to R71) -/

theorem encodeLine_of_skip (T : Tables) {l : Line} (h : classify l = .skip) : encodeLine T l = .skip := by
  simp [encodeLine, encoderFetch, h, Fetched.result]

theorem encodeLine_of_nop (T : Tables) {l : Line} (h : classify l = .nop) : encodeLine T l = .ok (.word 0#32) := by
  simp [encodeLine, encoderFetch, h, Fetched.result, encodeWith]

theorem encodeLine_of_unknown (T : Tables) {l : Line} (h : classify l = .unknown) :
    encodeLine T l = .error .unknownMnemonic := by
  simp [encodeLine, encoderFetch, h, Fetched.result]

/-- An operation's line gives the word of its operation, when the operands can be read. -/
theorem encodeLine_of_operation {T : Tables} {l : Line} {m : Mnemonic} {ops : List Token} {w : Word}
    (h : classify l = .operation m ops) (hw : encodeOperation T m ops = .ok w) : encodeLine T l = .ok (.word w) := by
  unfold encodeOperation at hw
  cases hread : readOperands T m ops with
  | error k => rw [hread] at hw; cases hw
  | ok i =>
    have hi : encodeWith T i = w := by simpa [hread, Except.map] using hw
    simp [encodeLine, encoderFetch, h, hread, Fetched.result, hi]

theorem classify_of_nopText {l : Line} (h : trim (stripComment l) = nopText) : classify l = .nop := by
  simp [classify, h, nopText, directiveChar, labelChar]

/-- A line that is neither skipped nor the literal `nop` is judged by its first token, which must be a table mnemonic (R71). -/
theorem classify_of_unknown_mnemonic {l : Line} {tok : Token} {ops : List Token} (hskip : classify l ≠ .skip)
    (hnop : trim (stripComment l) ≠ nopText) (htokens : tokens (trim (stripComment l)) = tok :: ops)
    (htok : Mnemonic.ofToken? tok = none) : classify l = .unknown := by
  revert hskip
  simp only [classify, hnop, htokens, htok, if_false]
  split_ifs <;> simp

/-! ### The Decoder's text for an R-format word (`45_decoder.md` R102, R105) -/

theorem decodeWord_of_decodeWith {T : Tables} {w : Word} {i : Instr} (h : decodeWith T w = .ok i) :
    decodeWord T w = .ok (.text (render T i)) := by
  simp [decodeWord, wordFetch, h, Fetched.result]

theorem decodeWord_of_rCode {T : Tables} (hT : T.wf = true) {w : Word} {op : ROp} (hopcode : opcodeField w = 0#6)
    (hfunct : functField w = T.rTable.code op) : decodeWord T w = .ok (.text (render T (decodeR w op))) :=
  decodeWord_of_decodeWith (decodeWith_of_rCode hT hopcode hfunct)

/-- A shift word with rd, rt and shamt 0 is `nop`'s (R46, R102). -/
theorem decodeR_sll_nop {w : Word} (hrd : rdField w = 0#5) (hrt : rtField w = 0#5) (hshamt : shamtField w = 0#5) :
    decodeR w .sll = .nop := by
  simp [decodeR, hrd, hrt, hshamt]

/-- Every other shift word is `sll`'s (R46, R102). -/
theorem decodeR_sll_shift {w : Word} (h : rtField w ≠ 0#5 ∨ rdField w ≠ 0#5 ∨ shamtField w ≠ 0#5) :
    decodeR w .sll = .sll (rdField w) (rtField w) (shamtField w) := by
  have hnop : ¬(rdField w = 0#5 ∧ rtField w = 0#5 ∧ shamtField w = 0#5) := by tauto
  simp [decodeR, hnop]

/-- The printed form of three registers, with the sigils beside their separators. -/
theorem textRegRegReg_eq (T : Tables) (m : Line) (a b c : RegIx) :
    textRegRegReg T m a b c =
      m ++ " $".toList ++ regName T a ++ ", $".toList ++ regName T b ++ ", $".toList ++ regName T c := by
  simp [textRegRegReg, regText, commaText, sigil]

/-- The printed form of two registers and an integer, with the sigils beside their separators. -/
theorem textRegRegInt_eq (T : Tables) (m : Line) (a b : RegIx) (v : Int) :
    textRegRegInt T m a b v =
      m ++ " $".toList ++ regName T a ++ ", $".toList ++ regName T b ++ ", ".toList ++ decText v := by
  simp [textRegRegInt, regText, commaText, sigil]

/-! ### Reading three operands (`41_encoder_frontend.md` R72 to R75) -/

section ReadThree
variable (T : Tables) {α : Type} (f : Instr → α)

/-- Three tokens are read from left to right, and the first failing one decides. -/
theorem map_readRegRegReg (mk : RegIx → RegIx → RegIx → Instr) (a b c : Token) :
    (readRegRegReg T mk [a, b, c]).map f = do
      let x ← regOperand T a
      let y ← regOperand T b
      let z ← regOperand T c
      return f (mk x y z) := by
  change f <$> readRegRegReg T mk [a, b, c] = _
  simp [readRegRegReg]

theorem map_readRegRegInt (w : Nat) (mk : RegIx → RegIx → BitVec w → Instr) (a b c : Token) :
    (readRegRegInt T w mk [a, b, c]).map f = do
      let x ← regOperand T a
      let y ← regOperand T b
      let v ← intOperand c
      return f (mk x y (pack v w)) := by
  change f <$> readRegRegInt T w mk [a, b, c] = _
  simp [readRegRegInt]

variable {ops : List Token} (hcount : ∀ a b c, ops ≠ [a, b, c])
include hcount

theorem readRegRegReg_of_count (mk : RegIx → RegIx → RegIx → Instr) :
    readRegRegReg T mk ops = .error .malformedOperand := by
  unfold readRegRegReg
  split
  · exact absurd rfl (hcount _ _ _)
  · rfl

theorem readRegRegInt_of_count (w : Nat) (mk : RegIx → RegIx → BitVec w → Instr) :
    readRegRegInt T w mk ops = .error .malformedOperand := by
  unfold readRegRegInt
  split
  · exact absurd rfl (hcount _ _ _)
  · rfl

end ReadThree

/-! ### The R-format translations (`42_r_format.md` R80, R81, R87) -/

theorem encodeOperation_add {T : Tables} (hT : T.wf = true) (a b c : Token) :
    encodeOperation T (.r .add) [a, b, c] = do
      let rd ← regOperand T a
      let rs ← regOperand T b
      let rt ← regOperand T c
      return rWord rs rt rd 0#5 32#6 := by
  rw [← wf_add hT]
  exact map_readRegRegReg T (encodeWith T) _ a b c

theorem encodeOperation_sll {T : Tables} (hT : T.wf = true) (a b c : Token) :
    encodeOperation T (.r .sll) [a, b, c] = do
      let rd ← regOperand T a
      let rt ← regOperand T b
      let v ← intOperand c
      return rWord 0#5 rt rd (pack v 5) 0#6 := by
  rw [← wf_sll hT]
  exact map_readRegRegInt T (encodeWith T) 5 _ a b c

theorem encodeOperation_add_of_count (T : Tables) {ops : List Token} (hcount : ∀ a b c, ops ≠ [a, b, c]) :
    encodeOperation T (.r .add) ops = .error .malformedOperand :=
  congrArg (Except.map (encodeWith T)) (readRegRegReg_of_count T hcount _)

theorem encodeOperation_sll_of_count (T : Tables) {ops : List Token} (hcount : ∀ a b c, ops ≠ [a, b, c]) :
    encodeOperation T (.r .sll) ops = .error .malformedOperand :=
  congrArg (Except.map (encodeWith T)) (readRegRegInt_of_count T hcount 5 _)

/-- Register 0 is called `zero`, the source's own entry of the Register Table (R13). -/
theorem regText_zero {T : Tables} (hT : T.wf = true) : regText T 0#5 = "$zero".toList := by
  obtain ⟨-, -, -, -, -, -, hentries⟩ := (wf_iff T).1 hT
  have hname : T.regNames[0] = "zero".toList := by
    simpa [regNamesStandard] using hentries 0 (by simp)
  simp [regText, regName, hname, sigil]

theorem classify_sll_zero_zero_zero :
    classify "sll $zero, $zero, 0".toList = .operation (.r .sll) ["$zero".toList, "$zero".toList, "0".toList] := by
  decide

/-- Settles O30: the whole line is recognised before any table is read, the decoder tests for `nop` before `sll`, `nop` is no
table mnemonic, and `sll` of nothing but zeros packs into the zero word. -/
theorem nopTranslatesBothWays : Obligations.NopTranslatesBothWays := by
  intro T hT
  refine ⟨?nopLine, ?nopWords, ?nopAndMore, ?sllOfZeros⟩
  case nopLine => exact fun _ hline => encodeLine_of_nop T (classify_of_nopText hline)
  case nopWords =>
    intro W hopcode hfunct hrt hrd hshamt
    rw [decodeWord_of_rCode (op := .sll) hT hopcode (hfunct.trans (wf_sll hT).symm), decodeR_sll_nop hrd hrt hshamt]
    rfl
  case nopAndMore =>
    intro l ops hskip hnop htokens
    have hclass : classify l ≠ .skip := fun h => hskip (encodeLine_of_skip T h)
    exact encodeLine_of_unknown T (classify_of_unknown_mnemonic hclass hnop htokens nop_is_no_mnemonic)
  case sllOfZeros =>
    refine encodeLine_of_operation classify_sll_zero_zero_zero ?_
    have hzero : regOperand T "$zero".toList = .ok 0#5 := regText_zero hT ▸ regOperand_regText hT 0#5
    rw [encodeOperation_sll hT, hzero]
    rfl

/-- Settles O31: three tokens are read in text order into the R layout, and funct 32 is `add`'s in every admissible table. -/
theorem addTranslatesBothWays : Obligations.AddTranslatesBothWays := by
  intro T hT
  refine ⟨fun ops => ?encode, fun W hopcode hfunct => ?decode⟩
  case encode =>
    split
    · exact encodeOperation_add hT _ _ _
    · exact encodeOperation_add_of_count T ‹_›
  case decode =>
    rw [decodeWord_of_rCode (op := .add) hT hopcode (hfunct.trans (wf_add hT).symm)]
    exact congrArg (fun t => Result.ok (.text t)) (textRegRegReg_eq T (ROp.name .add) _ _ _)

/-- Settles O33: the integer is packed into 5 bits, and a word with funct 0 is `sll`'s unless rt, rd and shamt are all 0. -/
theorem sllTranslatesBothWays : Obligations.SllTranslatesBothWays := by
  intro T hT
  refine ⟨fun ops => ?encode, fun W hopcode hfunct hfields => ?decode⟩
  case encode =>
    split
    · exact encodeOperation_sll hT _ _ _
    · exact encodeOperation_sll_of_count T ‹_›
  case decode =>
    rw [decodeWord_of_rCode (op := .sll) hT hopcode (hfunct.trans (wf_sll hT).symm), decodeR_sll_shift hfields]
    exact congrArg (fun t => Result.ok (.text t)) (textRegRegInt_eq T (ROp.name .sll) _ _ _)

end Sys2Proof.Machine

namespace Sys2Proof.Machine

/-! ### The I-format translation of `addi` (`43_i_format.md` R90) -/

/-- The Decoder prints a word as the I-table's instruction for its opcode (`45_decoder.md` R102, R105). -/
theorem decodeWord_of_iCode {T : Tables} (hT : T.wf = true) {w : Word} {op : IOp}
    (hopcode : opcodeField w = T.iTable.code op) : decodeWord T w = .ok (.text (render T (decodeI w op))) :=
  decodeWord_of_decodeWith (decodeWith_of_iCode hT hopcode)

theorem encodeOperation_addi {T : Tables} (hT : T.wf = true) (a b c : Token) :
    encodeOperation T (.i .addi) [a, b, c] = do
      let rt ← regOperand T a
      let rs ← regOperand T b
      let v ← intOperand c
      return iWord 8#6 rs rt (pack v 16) := by
  rw [← wf_addi hT]
  exact map_readRegRegInt T (encodeWith T) 16 _ a b c

theorem encodeOperation_addi_of_count (T : Tables) {ops : List Token} (hcount : ∀ a b c, ops ≠ [a, b, c]) :
    encodeOperation T (.i .addi) ops = .error .malformedOperand :=
  congrArg (Except.map (encodeWith T)) (readRegRegInt_of_count T hcount 16 _)

/-- Settles O36: three tokens are read in text order into the I layout, and opcode 8 is `addi`'s in every admissible table. -/
theorem addiTranslatesBothWays : Obligations.AddiTranslatesBothWays := by
  intro T hT
  refine ⟨fun ops => ?encode, fun W hopcode => ?decode⟩
  case encode =>
    split
    · exact encodeOperation_addi hT _ _ _
    · exact encodeOperation_addi_of_count T ‹_›
  case decode =>
    rw [decodeWord_of_iCode (op := .addi) hT (hopcode.trans (wf_addi hT).symm)]
    exact congrArg (fun t => Result.ok (.text t)) (textRegRegInt_eq T (IOp.name .addi) _ _ _)

end Sys2Proof.Machine

namespace Sys2Proof.Machine

/-! ### A printed integer read back (`40_bitfield_codec.md` R53, R58, R59) -/

theorem intOperand_neg_natText (n : Nat) : intOperand ('-' :: natText n) = .ok (-(n : Int)) := by
  simp [intOperand, numeralValue?_natText]

/-- A natural number's text is no negative numeral, since `-` is no digit. -/
theorem intOperand_natText (n : Nat) : intOperand (natText n) = .ok (n : Int) := by
  obtain ⟨c, cs, htext⟩ := List.exists_cons_of_ne_nil (natText_ne_nil n)
  have hminus : c ≠ '-' := by
    rintro rfl
    have hdigit : IsDigit '-' := isDigit_of_mem_natText (htext ▸ List.mem_cons_self)
    exact absurd ((isDigit_iff _).1 hdigit).1 (by decide)
  have hvalue : numeralValue? (c :: cs) = some n := htext ▸ numeralValue?_natText n
  simp [htext, intOperand, hminus, hvalue]

@[simp] theorem intOperand_decText (v : Int) : intOperand (decText v) = .ok v := by
  unfold decText
  split
  · rw [intOperand_neg_natText, Int.ofNat_natAbs_of_nonpos (by omega), neg_neg]
  · rw [intOperand_natText, Int.natAbs_of_nonneg (by omega)]

@[simp] theorem pack_unpackUnsigned {w : Nat} (f : BitVec w) : pack (unpackUnsigned f) w = f := by
  rw [← unpackUnsigned_inj, unpackUnsigned_pack, Int.emod_eq_of_lt (unpackUnsigned_nonneg f) (unpackUnsigned_lt f)]

/-! ### The J-format translations (`44_j_format.md` R97) -/

theorem map_readAddr {α : Type} (f : Instr → α) (mk : Addr → Instr) (a : Token) :
    (readAddr mk [a]).map f = do
      let v ← intOperand a
      return f (mk (pack v 26)) := by
  change f <$> readAddr mk [a] = _
  simp [readAddr]

theorem readAddr_of_count (mk : Addr → Instr) {ops : List Token} (hcount : ∀ a, ops ≠ [a]) :
    readAddr mk ops = .error .malformedOperand := by
  unfold readAddr
  split
  · exact absurd rfl (hcount _)
  · rfl

theorem encodeOperation_j (T : Tables) (op : JOp) (a : Token) :
    encodeOperation T (.j op) [a] = do
      let v ← intOperand a
      return jWord (T.jTable.code op) (pack v 26) := by
  cases op with
  | j => exact map_readAddr (encodeWith T) _ a
  | jal => exact map_readAddr (encodeWith T) _ a

theorem encodeOperation_j_of_count (T : Tables) (op : JOp) {ops : List Token} (hcount : ∀ a, ops ≠ [a]) :
    encodeOperation T (.j op) ops = .error .malformedOperand := by
  cases op with
  | j => exact congrArg (Except.map (encodeWith T)) (readAddr_of_count _ hcount)
  | jal => exact congrArg (Except.map (encodeWith T)) (readAddr_of_count _ hcount)

theorem render_decodeJ (T : Tables) (w : Word) (op : JOp) :
    render T (decodeJ w op) = textAddr op.name (unpackUnsigned (addrField w)) := by
  cases op <;> rfl

/-- The Decoder prints a word as the J-table's mnemonic for its opcode and the unsigned address (`45_decoder.md` R102, R105). -/
theorem decodeWord_of_jCode {T : Tables} (hT : T.wf = true) {w : Word} {op : JOp}
    (hopcode : opcodeField w = T.jTable.code op) :
    decodeWord T w = .ok (.text (textAddr op.name (unpackUnsigned (addrField w)))) := by
  rw [decodeWord_of_decodeWith (decodeWith_of_jCode hT hopcode), render_decodeJ]

theorem classify_textAddr (m : Mnemonic) (v : Int) : classify (textAddr m.name v) = .operation m [decText v] := by
  rw [textAddr, classify_operation m (operandText_of_plain (decText_ne_nil v) (decText_plain v)), tokens_decText]

/-- A J-format word has no unused field, so its opcode and the address in its text are the whole word. -/
theorem encodeLine_textAddr_of_jCode {T : Tables} {w : Word} {op : JOp} (hopcode : opcodeField w = T.jTable.code op) :
    encodeLine T (textAddr op.name (unpackUnsigned (addrField w))) = .ok (.word w) := by
  refine encodeLine_of_operation (classify_textAddr (.j op) _) ?_
  rw [encodeOperation_j, intOperand_decText]
  calc
    Except.ok (jWord (T.jTable.code op) (pack (unpackUnsigned (addrField w)) 26))
      = .ok (jWord (opcodeField w) (addrField w)) := by rw [pack_unpackUnsigned, hopcode]
    _ = .ok w := by rw [jWord_fields]

/-- Settles O41: opcode 2 is `j`'s in every admissible table, and opcode and address are all the fields of a `j` word. -/
theorem jumpTranslatesBothWays : Obligations.JumpTranslatesBothWays := by
  intro T hT
  refine ⟨fun ops => ?encode, fun W hfield => ?roundTrip⟩
  case encode =>
    split
    · rw [encodeOperation_j, show T.jTable.code .j = 2#6 from wf_j hT]
      rfl
    · exact encodeOperation_j_of_count T .j ‹_›
  case roundTrip =>
    have hopcode : opcodeField W = T.jTable.code .j := hfield.trans (wf_j hT).symm
    exact ⟨decodeWord_of_jCode hT hopcode, encodeLine_textAddr_of_jCode hopcode⟩

end Sys2Proof.Machine

namespace Sys2Proof.Machine

/-! ### Fields an instruction does not use (`45_decoder.md` R103) -/

/-- Words that agree under a mask have the same field at every position the mask keeps whole. -/
theorem extractLsb_eq_of_and_eq {w w' kept : Word} {hi lo : Nat} (hagree : w' &&& kept = w &&& kept)
    (hkept : kept.extractLsb hi lo = BitVec.allOnes (hi - lo + 1)) : w'.extractLsb hi lo = w.extractLsb hi lo := by
  have hfield := congrArg (BitVec.extractLsb hi lo) hagree
  rwa [BitVec.extractLsb_and, BitVec.extractLsb_and, hkept, BitVec.and_allOnes, BitVec.and_allOnes] at hfield

/-- No instruction leaves its opcode unused. -/
theorem opcodeField_eq_of_agree {w w' : Word} {i : Instr}
    (hagree : w' &&& ~~~unusedBits i = w &&& ~~~unusedBits i) : opcodeField w' = opcodeField w :=
  extractLsb_eq_of_and_eq hagree (by cases i <;> simp only [unusedBits] <;> decide)

/-- No instruction leaves the funct position unused. -/
theorem functField_eq_of_agree {w w' : Word} {i : Instr}
    (hagree : w' &&& ~~~unusedBits i = w &&& ~~~unusedBits i) : functField w' = functField w :=
  extractLsb_eq_of_and_eq hagree (by cases i <;> simp only [unusedBits] <;> decide)

/-- The shift test of R46 does not change which field is unused: `nop` and `sll` both ignore rs. -/
@[simp] theorem unusedBits_decodeR_sll (w : Word) : unusedBits (decodeR w .sll) = 0x03E00000#32 := by
  simp only [decodeR]
  split <;> rfl

@[simp] theorem unusedBits_decodeR_srl (w : Word) : unusedBits (decodeR w .srl) = 0x03E00000#32 := rfl

theorem decodeR_eq_of_agree {w w' : Word} {op : ROp}
    (hagree : w' &&& ~~~unusedBits (decodeR w op) = w &&& ~~~unusedBits (decodeR w op)) :
    decodeR w' op = decodeR w op := by
  cases op with
  | sll | srl =>
    simp only [unusedBits_decodeR_sll, unusedBits_decodeR_srl] at hagree
    have hrt : rtField w' = rtField w := extractLsb_eq_of_and_eq hagree (by decide)
    have hrd : rdField w' = rdField w := extractLsb_eq_of_and_eq hagree (by decide)
    have hshamt : shamtField w' = shamtField w := extractLsb_eq_of_and_eq hagree (by decide)
    simp only [decodeR, hrt, hrd, hshamt]
  | jr =>
    simp only [decodeR, unusedBits] at hagree
    have hrs : rsField w' = rsField w := extractLsb_eq_of_and_eq hagree (by decide)
    simp only [decodeR, hrs]
  | add | sub | and | or | xor | slt =>
    simp only [decodeR, unusedBits] at hagree
    have hrs : rsField w' = rsField w := extractLsb_eq_of_and_eq hagree (by decide)
    have hrt : rtField w' = rtField w := extractLsb_eq_of_and_eq hagree (by decide)
    have hrd : rdField w' = rdField w := extractLsb_eq_of_and_eq hagree (by decide)
    simp only [decodeR, hrs, hrt, hrd]

/-- An instruction that uses its whole word is told apart from every other word. -/
theorem eq_of_agree_of_unusedBits_eq_zero {w w' : Word} {i : Instr} (hall : unusedBits i = 0#32)
    (hagree : w' &&& ~~~unusedBits i = w &&& ~~~unusedBits i) : w' = w := by
  rwa [hall, BitVec.not_zero, BitVec.and_allOnes, BitVec.and_allOnes] at hagree

theorem decodeI_eq_of_agree {w w' : Word} {op : IOp}
    (hagree : w' &&& ~~~unusedBits (decodeI w op) = w &&& ~~~unusedBits (decodeI w op)) :
    decodeI w' op = decodeI w op := by
  cases op with
  | lui =>
    simp only [decodeI, unusedBits] at hagree
    have hrt : rtField w' = rtField w := extractLsb_eq_of_and_eq hagree (by decide)
    have himm : immField w' = immField w := extractLsb_eq_of_and_eq hagree (by decide)
    simp only [decodeI, hrt, himm]
  | addi | slti | lw | sw | beq | bne => rw [eq_of_agree_of_unusedBits_eq_zero rfl hagree]

theorem decodeJ_eq_of_agree {w w' : Word} {op : JOp}
    (hagree : w' &&& ~~~unusedBits (decodeJ w op) = w &&& ~~~unusedBits (decodeJ w op)) :
    decodeJ w' op = decodeJ w op := by
  have hall : unusedBits (decodeJ w op) = 0#32 := by cases op <;> rfl
  rw [eq_of_agree_of_unusedBits_eq_zero hall hagree]

/-- The dispatch reads opcode and funct, which no instruction ignores, and each arm reads only the fields its instruction uses. -/
theorem decodeWith_of_agree {T : Tables} (hT : T.wf = true) {w w' : Word} {i : Instr} (hdecode : decodeWith T w = .ok i)
    (hagree : w' &&& ~~~unusedBits i = w &&& ~~~unusedBits i) : decodeWith T w' = .ok i := by
  have hopcode := opcodeField_eq_of_agree hagree
  have hfunct := functField_eq_of_agree hagree
  obtain ⟨op, hzero, hcode, rfl⟩ | ⟨op, hcode, rfl⟩ | ⟨op, hcode, rfl⟩ := decodeWith_ok_cases hdecode
  · rw [decodeWith_of_rCode hT (hopcode.trans hzero) (hfunct.trans hcode), decodeR_eq_of_agree hagree]
  · rw [decodeWith_of_iCode hT (hopcode.trans hcode), decodeI_eq_of_agree hagree]
  · rw [decodeWith_of_jCode hT (hopcode.trans hcode), decodeJ_eq_of_agree hagree]

/-- Settles O50: its masks are `unusedBits`, and no arm of the dispatch reads a bit set there. -/
theorem unusedFieldsAreNotLookedAt : Obligations.UnusedFieldsAreNotLookedAt := by
  intro T W i hT hdecode unused W' hagree
  have hunused : unused = unusedBits i := by cases i <;> rfl
  exact decodeWith_of_agree hT hdecode (hunused ▸ hagree)

end Sys2Proof.Machine

namespace Sys2Proof.Machine

/-! ### Results gathered over a list -/

section MapExcept
variable {α β ε : Type} {f : α → Except ε β}

theorem mapM_cons_eq_ok_iff {a : α} {l : List α} {bs : List β} :
    (a :: l).mapM f = .ok bs ↔ ∃ b bs', f a = .ok b ∧ l.mapM f = .ok bs' ∧ bs = b :: bs' := by
  rw [List.mapM_cons]
  cases f a with
  | error e => exact ⟨nofun, nofun⟩
  | ok b =>
    cases l.mapM f with
    | error e => exact ⟨nofun, nofun⟩
    | ok bs' => simpa [bind, Except.bind, pure, Except.pure] using eq_comm

theorem length_of_mapM_eq_ok {l : List α} {bs : List β} (h : l.mapM f = .ok bs) : bs.length = l.length := by
  induction l generalizing bs with
  | nil =>
    cases h
    rfl
  | cons a l ih =>
    obtain ⟨b, bs', -, hl, rfl⟩ := mapM_cons_eq_ok_iff.1 h
    simp [ih hl]

end MapExcept

/-! ### Running a batch (`60_exceptions.md` R119, R120) -/

/-- After a step that goes on, the rest of the run starts from its next state. -/
theorem run_succ_of_next {M : Host.Core} {s s' : M.State} (k : Nat) (h : M.step s = .next s') :
    M.run (k + 1) s = M.run k s' := by
  rw [Host.Core.run, h]

theorem run_succ_of_refused {M : Host.Core} {s : M.State} {e : M.Refusal} (k : Nat) (h : M.step s = .refused e) :
    M.run (k + 1) s = .refused e := by
  rw [Host.Core.run, h]

/-- With one step for each line, a run succeeds exactly when every line has a result, and then it has appended those results in
input order. The state is general, since each step hands the next a longer output. -/
theorem run_batch_eq_next_iff {s t : State} {batch : List Request} (hT : s.tables.wf = true) (hbatch : s.pending = batch) :
    core.run batch.length s = .next t ↔
      ∃ rs, batch.mapM (transact s.tables) = .ok rs ∧ t = ⟨s.tables, [], s.output ++ rs⟩ := by
  induction batch generalizing s with
  | nil =>
    have hend : s = ⟨s.tables, [], s.output ++ []⟩ := by rw [← hbatch, List.append_nil]
    constructor
    · rintro ⟨⟩
      exact ⟨[], rfl, hend⟩
    · rintro ⟨_, ⟨⟩, rfl⟩
      exact congrArg Host.Outcome.next hend
  | cons q rest ih =>
    simp only [mapM_cons_eq_ok_iff]
    cases hq : transact s.tables q with
    | error e =>
      have hrun : core.run (q :: rest).length s = .refused e :=
        run_succ_of_refused (M := core) rest.length (step_of_transact_error hT hbatch hq)
      rw [hrun]
      exact ⟨nofun, nofun⟩
    | ok r =>
      have hrun : core.run (q :: rest).length s = core.run rest.length (⟨s.tables, rest, s.output ++ [r]⟩ : State) :=
        run_succ_of_next (M := core) rest.length (step_of_transact_ok hT hbatch hq)
      have hrest := ih (s := ⟨s.tables, rest, s.output ++ [r]⟩) hT rfl
      rw [hrun, hrest]
      simp

/-- Settles O4: the run of the whole batch, and one result for each line by induction over the lines. -/
theorem batchReturnsOneResultPerLine : Obligations.BatchReturnsOneResultPerLine :=
  fun _ rs hT hresults => ⟨(run_batch_eq_next_iff hT rfl).2 ⟨rs, hresults, rfl⟩, length_of_mapM_eq_ok hresults⟩

/-! ### What the driver writes (`60_exceptions.md` R115, R118, R120) -/

theorem batchOutput_append (a b : List Result) : batchOutput (a ++ b) = batchOutput a ++ batchOutput b :=
  List.filterMap_append

/-- A result is a skip or gives a line, never both. -/
theorem isSome_outputLine (r : Result) : r.outputLine.isSome = !r.isSkip := by
  cases r <;> rfl

theorem length_batchOutput_add_countP_isSkip (rs : List Result) :
    (batchOutput rs).length + rs.countP Result.isSkip = rs.length := by
  rw [batchOutput, List.length_filterMap_eq_countP, List.length_eq_countP_add_countP Result.isSkip, Nat.add_comm]
  simp [isSome_outputLine]

/-- Settles O6: the clauses on single results are the definition of a result's line, and a whole run's output is the results of
its lines, each of which is either skipped or written. -/
theorem driverWritesOneLinePerUnskippedInput : Obligations.DriverWritesOneLinePerUnskippedInput := by
  refine ⟨batchOutput_append, rfl, fun _ => rfl, fun _ => rfl, fun _ => rfl, fun s t hT houtput hrun => ?_⟩
  obtain ⟨rs, hresults, rfl⟩ := (run_batch_eq_next_iff hT rfl).1 hrun
  rw [houtput, List.nil_append]
  exact ⟨hresults, (length_batchOutput_add_countP_isSkip rs).trans (length_of_mapM_eq_ok hresults)⟩

end Sys2Proof.Machine

namespace Sys2Proof.Machine

/-! ### What a step can do (`20_memory.md` R31, `10_state.md` R23) -/

/-- A step that goes on either found no line, or answered the line in front with its transaction's result. -/
theorem step_next_cases {s s' : State} (h : step s = .next s') :
    s' = s ∨ ∃ q rest r, s.pending = q :: rest ∧ transact s.tables q = .ok r
      ∧ s' = ⟨s.tables, rest, s.output ++ [r]⟩ := by
  cases hT : s.tables.wf with
  | false =>
    rw [step_broken s hT] at h
    cases h
  | true =>
    cases hq : s.pending with
    | nil =>
      rw [step_nil s hT hq] at h
      exact .inl (Host.Outcome.next.inj h).symm
    | cons q rest =>
      cases hr : transact s.tables q with
      | ok r =>
        rw [step_of_transact_ok hT hq hr] at h
        exact .inr ⟨q, rest, r, rfl, hr, (Host.Outcome.next.inj h).symm⟩
      | error e =>
        rw [step_of_transact_error hT hq hr] at h
        cases h

/-- A step refuses for broken tables, or because the transaction of the line in front is refused. -/
theorem step_eq_refused_iff {s : State} {e : Refusal} :
    step s = .refused e ↔ (s.tables.wf = false ∧ e = .tablesBroken)
      ∨ (s.tables.wf = true ∧ ∃ q rest, s.pending = q :: rest ∧ transact s.tables q = .error e) := by
  cases hT : s.tables.wf with
  | false => simp [step_broken s hT, eq_comm]
  | true =>
    cases hq : s.pending with
    | nil => simp [step_nil s hT hq]
    | cons q rest =>
      cases hr : transact s.tables q with
      | ok r => simp [step_of_transact_ok hT hq hr, hr]
      | error e' => simp [step_of_transact_error hT hq hr, hr]

/-! ### The Decoder's input test (`45_decoder.md` R99, R100) -/

theorem textWord_eq_some_iff {t : Line} {w : Word} : textWord t = some w ↔ t = wordText w :=
  ⟨fun h => (wordText_of_textWord h).symm, fun h => h ▸ textWord_wordText w⟩

theorem textWord_eq_none_iff {t : Line} : textWord t = none ↔ ∀ w, t ≠ wordText w := by
  simp only [Option.eq_none_iff_forall_ne_some, ne_eq, textWord_eq_some_iff]

/-- The constraints of R100 on the sentinel line, one by one. -/
theorem sentinelLine_spec : sentinelLine ≠ [] ∧ trim sentinelLine = sentinelLine ∧ isWordText sentinelLine = false := by
  simpa [sentinelAdmissible, and_assoc] using sentinelLine_admissible

theorem sentinelLine_ne_wordText (w : Word) : sentinelLine ≠ wordText w := by
  intro h
  have hword := isWordText_wordText w
  rw [← h, sentinelLine_spec.2.2] at hword
  cases hword

/-- Settles O48: the constraints are those the chosen line was admitted by. -/
theorem sentinelMeetsItsConstraints : Obligations.SentinelMeetsItsConstraints :=
  ⟨sentinelLine_spec.1, sentinelLine_spec.2.1, sentinelLine_ne_wordText⟩

theorem wordText_ne_nil (w : Word) : wordText w ≠ [] := fun h => by
  simpa using (length_wordText w).symm.trans (congrArg List.length h)

theorem decodeLine_of_empty (T : Tables) {l : Line} (h : trim l = []) : decodeLine T l = .ok .skip := by
  simp [decodeLine, decoderFetch, h, Except.map, Fetched.result]

theorem decodeLine_of_sentinel (T : Tables) {l : Line} (h : trim l = sentinelLine) : decodeLine T l = .ok .skip := by
  simp [decodeLine, decoderFetch, (isSentinel_iff _).2 h, Except.map, Fetched.result]

/-- A line that reaches the last test of R100 is decoded if it is the text of a word. -/
theorem decodeLine_of_other (T : Tables) {l : Line} (hempty : trim l ≠ []) (hsentinel : trim l ≠ sentinelLine) :
    decodeLine T l = match textWord (trim l) with
      | none => .error .notAWord
      | some w => .ok (decodeWord T w) := by
  have hnot : ¬ isSentinel (trim l) = true := mt (isSentinel_iff _).1 hsentinel
  simp only [decodeLine, decoderFetch, hempty, hnot, if_false]
  cases textWord (trim l) <;> rfl

theorem decodeLine_of_wordText (T : Tables) {l : Line} {w : Word} (h : trim l = wordText w) :
    decodeLine T l = .ok (decodeWord T w) := by
  rw [decodeLine_of_other T (h ▸ wordText_ne_nil w) (h ▸ (sentinelLine_ne_wordText w).symm), h, textWord_wordText]

theorem decodeLine_of_notAWord (T : Tables) {l : Line} (hempty : trim l ≠ []) (hsentinel : trim l ≠ sentinelLine)
    (hword : ∀ w, trim l ≠ wordText w) : decodeLine T l = .error .notAWord := by
  rw [decodeLine_of_other T hempty hsentinel, textWord_eq_none_iff.2 hword]

/-- Settles O47: one lemma for each outcome of the input test. -/
theorem decodeLineFollowsItsInputTest : Obligations.DecodeLineFollowsItsInputTest :=
  fun T _ => ⟨decodeLine_of_empty T, decodeLine_of_sentinel T, fun _ => decodeLine_of_wordText T,
    decodeLine_of_notAWord T⟩

/-- The only lines the Decoder refuses are those outside the contract (R100 (d), D13). -/
theorem decodeLine_eq_error_iff {T : Tables} {l : Line} {e : Refusal} : decodeLine T l = .error e ↔
    e = .notAWord ∧ trim l ≠ [] ∧ trim l ≠ sentinelLine ∧ ∀ w, trim l ≠ wordText w := by
  constructor
  · intro h
    have hempty : trim l ≠ [] := fun h' => by rw [decodeLine_of_empty T h'] at h; cases h
    have hsentinel : trim l ≠ sentinelLine := fun h' => by rw [decodeLine_of_sentinel T h'] at h; cases h
    have hword : ∀ w, trim l ≠ wordText w := fun w h' => by rw [decodeLine_of_wordText T h'] at h; cases h
    rw [decodeLine_of_notAWord T hempty hsentinel hword] at h
    exact ⟨(Except.error.inj h).symm, hempty, hsentinel, hword⟩
  · rintro ⟨rfl, hempty, hsentinel, hword⟩
    exact decodeLine_of_notAWord T hempty hsentinel hword

/-- A result the Decoder returns for a line is a skip, or what it returns for the word whose text the line is. -/
theorem decodeLine_ok_cases {T : Tables} {l : Line} {r : Result} (h : decodeLine T l = .ok r) :
    r = .skip ∨ ∃ w, trim l = wordText w ∧ r = decodeWord T w := by
  by_cases hempty : trim l = []
  · rw [decodeLine_of_empty T hempty] at h
    exact .inl (Except.ok.inj h).symm
  by_cases hsentinel : trim l = sentinelLine
  · rw [decodeLine_of_sentinel T hsentinel] at h
    exact .inl (Except.ok.inj h).symm
  by_cases hword : ∃ w, trim l = wordText w
  · obtain ⟨w, hw⟩ := hword
    rw [decodeLine_of_wordText T hw] at h
    exact .inr ⟨w, hw, (Except.ok.inj h).symm⟩
  · rw [decodeLine_of_notAWord T hempty hsentinel (not_exists.1 hword)] at h
    cases h

/-! ### Safe runs (`60_exceptions.md` R116, R121; `70_reset_and_hazards.md` R132, R136) -/

/-- A line within the contract has a result. -/
theorem exists_transact_of_inContract (T : Tables) {q : Request} (h : q.inContract) : ∃ r, transact T q = .ok r := by
  obtain ⟨agent, l⟩ := q
  cases agent with
  | encoder => exact ⟨_, transact_encoder T l⟩
  | decoder =>
    rw [transact_decoder]
    rcases h with hempty | hsentinel | hword
    · exact ⟨_, decodeLine_of_empty T hempty⟩
    · exact ⟨_, decodeLine_of_sentinel T ((isSentinel_iff _).1 hsentinel)⟩
    · obtain ⟨w, hw⟩ := exists_textWord_iff.2 hword
      exact ⟨_, decodeLine_of_wordText T (textWord_eq_some_iff.1 hw)⟩

/-- A safe state steps to a safe state: answering a line only shortens what is presented. -/
theorem State.Safe.exists_step {s : State} (h : s.Safe) : ∃ s', step s = .next s' ∧ s'.Safe := by
  obtain ⟨hT, hcontract⟩ := h
  cases hq : s.pending with
  | nil => exact ⟨s, step_nil s hT hq, hT, hcontract⟩
  | cons q rest =>
    rw [hq] at hcontract
    obtain ⟨r, hr⟩ := exists_transact_of_inContract s.tables (hcontract q List.mem_cons_self)
    exact ⟨_, step_of_transact_ok hT hq hr, hT, fun p hp => hcontract p (List.mem_cons_of_mem q hp)⟩

theorem State.Safe.safeRun {s : State} (h : s.Safe) (n : Nat) : SafeRun n s := by
  induction n generalizing s with
  | zero => exact ⟨s, rfl⟩
  | succ n ih =>
    obtain ⟨s', hstep, hsafe⟩ := h.exists_step
    obtain ⟨t, hrun⟩ := ih hsafe
    exact ⟨t, (run_succ_of_next (M := core) n hstep).trans hrun⟩

/-- Settles O7: safety is kept by a step, and a run by induction on its length. -/
theorem safeRunsNeverStop : Obligations.SafeRunsNeverStop :=
  ⟨fun _ hsafe => hsafe.exists_step, fun n _ hsafe => hsafe.safeRun n⟩

theorem transact_eq_error_iff {T : Tables} {q : Request} {e : Refusal} : transact T q = .error e ↔
    e = .notAWord ∧ ∃ l, q = ⟨.decoder, l⟩ ∧ trim l ≠ [] ∧ trim l ≠ sentinelLine ∧ ∀ w, trim l ≠ wordText w := by
  obtain ⟨agent, l⟩ := q
  cases agent with
  | encoder => simp [transact_encoder]
  | decoder => simp [transact_decoder, decodeLine_eq_error_iff]

/-- Settles O8: a step refuses for its tables or for its transaction, and only a Decoder line is refused. -/
theorem stepRefusesExactlyOutsideTheContract : Obligations.StepRefusesExactlyOutsideTheContract := by
  intro s e
  rw [step_eq_refused_iff]
  refine or_congr_right (and_congr_right fun _ => ?_)
  constructor
  · rintro ⟨q, rest, hq, hr⟩
    obtain ⟨he, l, rfl, hline⟩ := transact_eq_error_iff.1 hr
    exact ⟨he, l, rest, hq, hline⟩
  · rintro ⟨he, l, rest, hq, hline⟩
    exact ⟨_, rest, hq, transact_eq_error_iff.2 ⟨he, l, rfl, hline⟩⟩

/-- Settles O2: reset holds the constants by definition, and a step that goes on keeps the tables in both its cases. -/
theorem tablesAreNeverMutated : Obligations.TablesAreNeverMutated := by
  refine ⟨reset_tables, fun s s' hstep => ?_, fun s => by rw [resetBlock_eq]⟩
  obtain rfl | ⟨q, rest, r, -, -, rfl⟩ := step_next_cases hstep
  · rfl
  · rfl

/-! ### The order of presentation (`20_memory.md` R31 (b)) -/

/-- Pairing the lines with their results is a filter of the lines one by one, so it does not see their order. -/
theorem zip_eq_filterMap_of_mapM_eq_ok {α β ε : Type} {f : α → Except ε β} {l : List α} {bs : List β}
    (h : l.mapM f = .ok bs) : l.zip bs = l.filterMap fun a => (f a).toOption.map (Prod.mk a) := by
  induction l generalizing bs with
  | nil => rfl
  | cons a l ih =>
    obtain ⟨b, bs', ha, hl, rfl⟩ := mapM_cons_eq_ok_iff.1 h
    rw [List.zip_cons_cons, ih hl, List.filterMap_cons_some (by rw [ha]; rfl)]

/-- Settles O5: each run pairs every line with its own result, whatever the order. -/
theorem presentationOrderChangesNoResult : Obligations.PresentationOrderChangesNoResult := by
  intro s₁ s₂ t₁ t₂ htables hT hout₁ hout₂ hperm hrun₁ hrun₂
  obtain ⟨rs₁, hresults₁, rfl⟩ := (run_batch_eq_next_iff hT rfl).1 hrun₁
  obtain ⟨rs₂, hresults₂, rfl⟩ := (run_batch_eq_next_iff (htables ▸ hT) rfl).1 hrun₂
  simp only [hout₁, hout₂, List.nil_append]
  rw [zip_eq_filterMap_of_mapM_eq_ok hresults₁, zip_eq_filterMap_of_mapM_eq_ok hresults₂, ← htables]
  exact hperm.filterMap _

/-! ### The instructions and the step that runs them -/

/-- Settles O46: an instruction delivers one `Ok` result, and delivering moves nothing else. -/
theorem instructionsChangeOnlyTheirResult : Obligations.InstructionsChangeOnlyTheirResult := by
  intro i s
  cases hq : s.pending with
  | nil => exact ⟨s, exec_nil i s hq, rfl, hq, fun _ => rfl, fun hne => absurd rfl hne⟩
  | cons q rest =>
    obtain ⟨p, hp⟩ : ∃ p, (Fetched.instr i).result s.tables q.agent = .ok p := by
      cases q.agent
      · exact ⟨_, rfl⟩
      · exact ⟨_, rfl⟩
    refine ⟨_, exec_cons i s q rest hq, ?_⟩
    rw [hp, deliver_cons s _ q rest hq]
    exact ⟨rfl, rfl, nofun, fun _ => ⟨p, rfl⟩⟩

/-- A step runs the instruction that its transaction fetches. -/
theorem step_of_fetch_instr {s : State} {q : Request} {rest : List Request} {i : Instr} (hT : s.tables.wf = true)
    (hq : s.pending = q :: rest) (hfetch : fetch s.tables q = .ok (.instr i)) : step s = exec i s := by
  simp only [step, hT, hq, if_true, hfetch]

/-- A Decoder line that is a word's text fetches what the word holds. -/
theorem decoderFetch_of_wordText (T : Tables) {l : Line} {w : Word} (h : trim l = wordText w) :
    decoderFetch T l = .ok (wordFetch T w) := by
  have hnot : ¬ isSentinel (wordText w) = true := fun h' => sentinelLine_ne_wordText w ((isSentinel_iff _).1 h').symm
  simp [decoderFetch, h, wordText_ne_nil w, hnot]

theorem wordFetch_of_decodeWith {T : Tables} {w : Word} {i : Instr} (h : decodeWith T w = .ok i) :
    wordFetch T w = .instr i := by
  simp [wordFetch, h]

theorem trim_wordText (w : Word) : trim (wordText w) = wordText w := by
  have hbits := (isWordText_iff.1 (isWordText_wordText w)).2
  have hnotWs : ∀ c ∈ wordText w, isWs c = false := fun c hc => by
    rcases hbits c hc with rfl | rfl <;> decide
  exact trim_eq_self (fun c hc => hnotWs c (List.mem_of_head? hc)) fun c hc => hnotWs c (List.mem_of_getLast? hc)

theorem decode_of_decodeTableWord {n w : Nat} {i : Instr} (h : decodeTableWord n w = some i) :
    decode (tableWord n w) = .ok i := by
  simp only [decodeTableWord, textWord_wordText] at h
  split at h
  · cases h
    assumption
  · cases h

/-- Settles O9: in each clause the line in front fetches the instruction, by the rules of its agent. -/
theorem stepRunsTheInstructionOnTheLine : Obligations.StepRunsTheInstructionOnTheLine := by
  refine ⟨?decoder, ?nopLine, ?operation, ?tableWord⟩
  case decoder =>
    intro s l rest w i hT hq hline hdecode
    refine step_of_fetch_instr hT hq ?_
    rw [fetch, decoderFetch_of_wordText s.tables hline, wordFetch_of_decodeWith hdecode]
  case nopLine =>
    intro s l rest hT hq hline
    refine step_of_fetch_instr hT hq ?_
    simp [fetch, encoderFetch, classify_of_nopText hline]
  case operation =>
    intro s l rest m ops i hT hq hclass hread
    refine step_of_fetch_instr hT hq ?_
    simp [fetch, encoderFetch, hclass, hread]
  case tableWord =>
    intro s n w i hT hdecode
    have hword : decodeWith s.tables (tableWord n w) = .ok i := hT ▸ decode_of_decodeTableWord hdecode
    refine step_of_fetch_instr (hT ▸ standard_wf) (withFetchWord_pending s n w) ?_
    rw [fetch, withFetchWord_tables, decoderFetch_of_wordText _ (trim_wordText _), wordFetch_of_decodeWith hword]

end Sys2Proof.Machine

namespace Sys2Proof.Machine

/-! ### Decoding what was encoded (`30_encoding.md` R35 to R37, R48; `45_decoder.md` R102) -/

theorem decodeWith_rWord {T : Tables} (hT : T.wf = true) (op : ROp) (rs rt rd : RegIx) (shamt : Shamt) :
    decodeWith T (rWord rs rt rd shamt (T.rTable.code op))
      = .ok (decodeR (rWord rs rt rd shamt (T.rTable.code op)) op) :=
  decodeWith_of_rCode hT (opcodeField_rWord ..) (functField_rWord ..)

theorem decodeWith_iWord {T : Tables} (hT : T.wf = true) (op : IOp) (rs rt : RegIx) (imm : Imm) :
    decodeWith T (iWord (T.iTable.code op) rs rt imm) = .ok (decodeI (iWord (T.iTable.code op) rs rt imm) op) :=
  decodeWith_of_iCode hT (opcodeField_iWord ..)

theorem decodeWith_jWord {T : Tables} (hT : T.wf = true) (op : JOp) (addr : Addr) :
    decodeWith T (jWord (T.jTable.code op) addr) = .ok (decodeJ (jWord (T.jTable.code op) addr) op) :=
  decodeWith_of_jCode hT (opcodeField_jWord ..)

/-- `nop`'s word is the shift layout with nothing but zeros in it. -/
theorem zero_eq_rWord_sll {T : Tables} (hT : T.wf = true) : 0#32 = rWord 0#5 0#5 0#5 0#5 (T.rTable.code .sll) := by
  rw [show T.rTable.code .sll = 0#6 from wf_sll hT]
  rfl

theorem decodeWith_zero {T : Tables} (hT : T.wf = true) : decodeWith T 0#32 = .ok .nop := by
  rw [zero_eq_rWord_sll hT, decodeWith_rWord hT, decodeR_sll_nop (by simp) (by simp) (by simp)]

theorem wellFormed_sll_iff (rd rt : RegIx) (shamt : Shamt) :
    (Instr.sll rd rt shamt).wellFormed = true ↔ rt ≠ 0#5 ∨ rd ≠ 0#5 ∨ shamt ≠ 0#5 := by
  simp only [Instr.wellFormed, Bool.not_eq_true', Bool.and_eq_false_iff, beq_eq_false_iff_ne]
  tauto

/-- Decoding inverts encoding: opcode and funct lead to the arm of the mnemonic, which reads the fields back. -/
theorem decodeWith_encodeWith {T : Tables} (hT : T.wf = true) (i : Instr) (hi : i.wellFormed = true) :
    decodeWith T (encodeWith T i) = .ok i := by
  cases i with
  | nop => exact decodeWith_zero hT
  | sll rd rt shamt =>
    refine (decodeWith_rWord hT .sll ..).trans ?_
    rw [decodeR_sll_shift (by simpa using (wellFormed_sll_iff rd rt shamt).1 hi)]
    simp
  | srl => exact (decodeWith_rWord hT .srl ..).trans (by simp [decodeR])
  | jr => exact (decodeWith_rWord hT .jr ..).trans (by simp [decodeR])
  | add => exact (decodeWith_rWord hT .add ..).trans (by simp [decodeR])
  | sub => exact (decodeWith_rWord hT .sub ..).trans (by simp [decodeR])
  | and => exact (decodeWith_rWord hT .and ..).trans (by simp [decodeR])
  | or => exact (decodeWith_rWord hT .or ..).trans (by simp [decodeR])
  | xor => exact (decodeWith_rWord hT .xor ..).trans (by simp [decodeR])
  | slt => exact (decodeWith_rWord hT .slt ..).trans (by simp [decodeR])
  | addi => exact (decodeWith_iWord hT .addi ..).trans (by simp [decodeI])
  | slti => exact (decodeWith_iWord hT .slti ..).trans (by simp [decodeI])
  | lui => exact (decodeWith_iWord hT .lui ..).trans (by simp [decodeI])
  | lw => exact (decodeWith_iWord hT .lw ..).trans (by simp [decodeI])
  | sw => exact (decodeWith_iWord hT .sw ..).trans (by simp [decodeI])
  | beq => exact (decodeWith_iWord hT .beq ..).trans (by simp [decodeI])
  | bne => exact (decodeWith_iWord hT .bne ..).trans (by simp [decodeI])
  | j => exact (decodeWith_jWord hT .j ..).trans (by simp [decodeJ])
  | jal => exact (decodeWith_jWord hT .jal ..).trans (by simp [decodeJ])

/-- Settles O53. -/
theorem decodeInvertsEncode : Obligations.DecodeInvertsEncode :=
  fun _ i hT hi => decodeWith_encodeWith hT i hi

/-- The one instruction that is not well-formed shares its word with `nop` (`90_conflicts.md` C3). -/
theorem encodeWith_of_not_wellFormed {T : Tables} (hT : T.wf = true) {i : Instr} (hi : i.wellFormed = false) :
    encodeWith T i = 0#32 := by
  cases i with
  | sll rd rt shamt =>
    obtain ⟨⟨rfl, rfl⟩, rfl⟩ : (rd = 0#5 ∧ rt = 0#5) ∧ shamt = 0#5 := by simpa [Instr.wellFormed] using hi
    exact (zero_eq_rWord_sll hT).symm
  | _ => cases hi

/-- Every word the Encoder writes decodes to an instruction of that same word. -/
theorem exists_decodeWith_encodeWith {T : Tables} (hT : T.wf = true) (i : Instr) :
    ∃ i', decodeWith T (encodeWith T i) = .ok i' ∧ encodeWith T i' = encodeWith T i := by
  cases hi : i.wellFormed with
  | true => exact ⟨i, decodeWith_encodeWith hT i hi, rfl⟩
  | false =>
    rw [encodeWith_of_not_wellFormed hT hi]
    exact ⟨.nop, decodeWith_zero hT, rfl⟩

/-! ### Encoding what was decoded: the canonical word (R48, R109) -/

/-- The `nop` test of R102 on the fields of a shift word. -/
theorem decodeR_sll_cases (w : Word) :
    (rtField w = 0#5 ∧ rdField w = 0#5 ∧ shamtField w = 0#5 ∧ decodeR w .sll = .nop)
      ∨ (rtField w ≠ 0#5 ∨ rdField w ≠ 0#5 ∨ shamtField w ≠ 0#5)
        ∧ decodeR w .sll = .sll (rdField w) (rtField w) (shamtField w) := by
  by_cases hfields : rtField w ≠ 0#5 ∨ rdField w ≠ 0#5 ∨ shamtField w ≠ 0#5
  · exact .inr ⟨hfields, decodeR_sll_shift hfields⟩
  · obtain ⟨hrt, hrd, hshamt⟩ : rtField w = 0#5 ∧ rdField w = 0#5 ∧ shamtField w = 0#5 := by tauto
    exact .inl ⟨hrt, hrd, hshamt, decodeR_sll_nop hrd hrt hshamt⟩

/-- An R-format word is encoded again without the fields its instruction does not use. -/
theorem encodeWith_decodeR {T : Tables} (hT : T.wf = true) {w : Word} {op : ROp} (hopcode : opcodeField w = 0#6)
    (hfunct : functField w = T.rTable.code op) :
    encodeWith T (decodeR w op) = w &&& ~~~unusedBits (decodeR w op) := by
  have hw := rWord_fields w hopcode
  rw [hfunct] at hw
  cases op with
  | sll =>
    rw [unusedBits_decodeR_sll]
    conv_rhs => rw [← hw, rWord_clear_rs]
    obtain ⟨hrt, hrd, hshamt, hnop⟩ | ⟨-, hshift⟩ := decodeR_sll_cases w
    · rw [hnop, hrt, hrd, hshamt]
      exact zero_eq_rWord_sll hT
    · rw [hshift]
      rfl
  | srl =>
    conv_rhs => rw [← hw, unusedBits_decodeR_srl, rWord_clear_rs]
    rfl
  | jr =>
    conv_rhs => rw [← hw, decodeR, unusedBits, rWord_clear_rt_rd_shamt]
    rfl
  | add | sub | and | or | xor | slt =>
    conv_rhs => rw [← hw, decodeR, unusedBits, rWord_clear_shamt]
    rfl

theorem encodeWith_decodeI {T : Tables} {w : Word} {op : IOp} (hopcode : opcodeField w = T.iTable.code op) :
    encodeWith T (decodeI w op) = w &&& ~~~unusedBits (decodeI w op) := by
  have hw := iWord_fields w
  rw [hopcode] at hw
  cases op with
  | lui =>
    conv_rhs => rw [← hw, decodeI, unusedBits, iWord_clear_rs]
    rfl
  | addi | slti | lw | sw | beq | bne =>
    rw [decodeI, unusedBits, BitVec.not_zero, BitVec.and_allOnes]
    exact hw

/-- A J-format instruction uses its whole word. -/
theorem encodeWith_decodeJ {T : Tables} {w : Word} {op : JOp} (hopcode : opcodeField w = T.jTable.code op) :
    encodeWith T (decodeJ w op) = w &&& ~~~unusedBits (decodeJ w op) := by
  have hw := jWord_fields w
  rw [hopcode] at hw
  cases op with
  | j | jal =>
    rw [decodeJ, unusedBits, BitVec.not_zero, BitVec.and_allOnes]
    exact hw

/-- Encoding what a word decodes to gives its canonical word. -/
theorem canonWith_of_decodeWith {T : Tables} (hT : T.wf = true) {w : Word} {i : Instr} (h : decodeWith T w = .ok i) :
    canonWith T w = some (encodeWith T i) := by
  have hcanon : encodeWith T i = w &&& ~~~unusedBits i := by
    obtain ⟨op, hzero, hcode, rfl⟩ | ⟨op, hcode, rfl⟩ | ⟨op, hcode, rfl⟩ := decodeWith_ok_cases h
    · exact encodeWith_decodeR hT hzero hcode
    · exact encodeWith_decodeI hcode
    · exact encodeWith_decodeJ hcode
  simp [canonWith, h, hcanon]

/-- What a word decodes to is well-formed: the `nop` test stands before `sll`. -/
theorem wellFormed_of_decodeWith {T : Tables} {w : Word} {i : Instr} (h : decodeWith T w = .ok i) :
    i.wellFormed = true := by
  obtain ⟨op, -, -, rfl⟩ | ⟨op, -, rfl⟩ | ⟨op, -, rfl⟩ := decodeWith_ok_cases h
  · cases op with
    | sll =>
      obtain ⟨-, -, -, hnop⟩ | ⟨hfields, hshift⟩ := decodeR_sll_cases w
      · rw [hnop]
        rfl
      · rw [hshift, wellFormed_sll_iff]
        exact hfields
    | _ => rfl
  · cases op <;> rfl
  · cases op <;> rfl

/-- A word decodes to the same instruction as its canonical word. -/
theorem decodeWith_encodeWith_of_decodeWith {T : Tables} (hT : T.wf = true) {w : Word} {i : Instr}
    (h : decodeWith T w = .ok i) : decodeWith T (encodeWith T i) = .ok i :=
  decodeWith_encodeWith hT i (wellFormed_of_decodeWith h)

theorem decodeWord_of_error {T : Tables} {w : Word} {k : ErrorKind} (h : decodeWith T w = .error k) :
    decodeWord T w = .error k := by
  simp [decodeWord, wordFetch, h, Fetched.result]

theorem decodeWord_eq_error_iff {T : Tables} {w : Word} {k : ErrorKind} :
    decodeWord T w = .error k ↔ decodeWith T w = .error k := by
  cases hi : decodeWith T w with
  | ok i => simp [decodeWord_of_decodeWith hi]
  | error k' => simp [decodeWord_of_error hi]

/-- A word the Decoder has a text for decodes to an instruction with that text. -/
theorem exists_decodeWith_of_decodeWord {T : Tables} {w : Word} {t : Line} (h : decodeWord T w = .ok (.text t)) :
    ∃ i, decodeWith T w = .ok i ∧ t = render T i := by
  cases hi : decodeWith T w with
  | ok i =>
    rw [decodeWord_of_decodeWith hi] at h
    cases h
    exact ⟨i, rfl, rfl⟩
  | error k =>
    rw [decodeWord_of_error hi] at h
    cases h

/-! ### What the Encoder answers (`41_encoder_frontend.md` R78) -/

theorem encodeLine_of_encoderFetch {T : Tables} {l : Line} {i : Instr} (h : encoderFetch T l = .instr i) :
    encodeLine T l = .ok (.word (encodeWith T i)) := by
  rw [encodeLine, h, Fetched.result]

/-- The Encoder's payload is the word of the instruction it found on the line. -/
theorem exists_encoderFetch_of_encodeLine {T : Tables} {l : Line} {p : Payload} (h : encodeLine T l = .ok p) :
    ∃ i, encoderFetch T l = .instr i ∧ p = .word (encodeWith T i) := by
  cases hf : encoderFetch T l with
  | skip => simp [encodeLine, hf, Fetched.result] at h
  | error k => simp [encodeLine, hf, Fetched.result] at h
  | instr i =>
    rw [encodeLine_of_encoderFetch hf] at h
    cases h
    exact ⟨i, rfl, rfl⟩

/-- Settles O29: the word decodes to an instruction of the same word, which is therefore its own canonical word. -/
theorem encoderProducesCanonicalWords : Obligations.EncoderProducesCanonicalWords := by
  intro T l p hT h
  obtain ⟨i, -, rfl⟩ := exists_encoderFetch_of_encodeLine h
  obtain ⟨i', hdecode, hsame⟩ := exists_decodeWith_encodeWith hT i
  refine ⟨encodeWith T i, render T i', rfl, ?_, decodeWord_of_decodeWith hdecode⟩
  rw [canonWith_of_decodeWith hT hdecode, hsame]

end Sys2Proof.Machine

namespace Sys2Proof.Machine

/-! ### Printed operands read back (`45_decoder.md` R105, R110) -/

@[simp] theorem pack_unpackSigned {w : Nat} (f : BitVec w) : pack (unpackSigned f) w = f := BitVec.ofInt_toInt

section ReadTexts
variable {T : Tables} (hT : T.wf = true)
include hT

theorem readRegRegReg_texts (mk : RegIx → RegIx → RegIx → Instr) (a b c : RegIx) :
    readRegRegReg T mk [regText T a, regText T b, regText T c] = .ok (mk a b c) := by
  simp [readRegRegReg, regOperand_regText hT, pure, Except.pure, bind, Except.bind]

theorem readRegRegInt_texts {w : Nat} (mk : RegIx → RegIx → BitVec w → Instr) (a b : RegIx) (v : Int) :
    readRegRegInt T w mk [regText T a, regText T b, decText v] = .ok (mk a b (pack v w)) := by
  simp [readRegRegInt, regOperand_regText hT, pure, Except.pure, bind, Except.bind]

/-- A shift amount, printed unsigned, is packed into the field it came from. -/
theorem readRegRegInt_unsigned {w : Nat} (mk : RegIx → RegIx → BitVec w → Instr) (a b : RegIx) (f : BitVec w) :
    readRegRegInt T w mk [regText T a, regText T b, decText (unpackUnsigned f)] = .ok (mk a b f) := by
  rw [readRegRegInt_texts hT, pack_unpackUnsigned]

/-- An immediate, printed signed, is packed into the field it came from. -/
theorem readRegRegInt_signed {w : Nat} (mk : RegIx → RegIx → BitVec w → Instr) (a b : RegIx) (f : BitVec w) :
    readRegRegInt T w mk [regText T a, regText T b, decText (unpackSigned f)] = .ok (mk a b f) := by
  rw [readRegRegInt_texts hT, pack_unpackSigned]

theorem readReg_texts (mk : RegIx → Instr) (a : RegIx) : readReg T mk [regText T a] = .ok (mk a) := by
  simp [readReg, regOperand_regText hT, pure, Except.pure, bind, Except.bind]

theorem readRegImm_texts (mk : RegIx → Imm → Instr) (a : RegIx) (imm : Imm) :
    readRegImm T mk [regText T a, decText (unpackSigned imm)] = .ok (mk a imm) := by
  simp [readRegImm, regOperand_regText hT, pure, Except.pure, bind, Except.bind]

theorem readRegImmReg_texts (mk : RegIx → Imm → RegIx → Instr) (a : RegIx) (imm : Imm) (b : RegIx) :
    readRegImmReg T mk [regText T a, decText (unpackSigned imm), regText T b] = .ok (mk a imm b) := by
  simp [readRegImmReg, regOperand_regText hT, pure, Except.pure, bind, Except.bind]

end ReadTexts

theorem readAddr_texts (mk : Addr → Instr) (addr : Addr) :
    readAddr mk [decText (unpackUnsigned addr)] = .ok (mk addr) := by
  simp [readAddr, pure, Except.pure, bind, Except.bind]

/-! ### Printed lines split into their operands (R69, R105) -/

theorem operandText_regText (i : RegIx) : OperandText (regText Tables.standard i) :=
  operandText_of_plain (List.cons_ne_nil _ _) (regText_standard_plain i)

theorem operandText_decText (v : Int) : OperandText (decText v) :=
  operandText_of_plain (decText_ne_nil v) (decText_plain v)

/-- Operands joined by a comma are operand text again. -/
theorem OperandText.comma {a b : Line} (ha : OperandText a) (hb : OperandText b) :
    OperandText (a ++ commaText ++ b) :=
  hb.append (by simp [ha.noComment, commaText])

/-- The offset form of R93 is operand text: the closing parenthesis neither is whitespace nor ends a label. -/
theorem OperandText.offset {a b : Line} (ha : OperandText a) (hb : OperandText b) :
    OperandText (a ++ ['('] ++ b ++ [')']) :=
  ⟨by simp [ha.noComment, hb.noComment], ')', List.getLast?_concat, by decide, by decide⟩

theorem tokens_offset (a b : Line) : tokens (a ++ ['('] ++ b ++ [')']) = tokens a ++ tokens b := by
  have hsplit : a ++ ['('] ++ b ++ [')'] = a ++ '(' :: (b ++ ')' :: []) := by simp
  rw [hsplit, tokens_append_delimiter _ _ _ (by decide), tokens_append_delimiter _ _ _ (by decide)]
  exact congrArg _ (List.append_nil _)

/-- A mnemonic and an operand text that holds the tokens `ops`. -/
theorem classify_of_tokens (m : Mnemonic) {b : Line} {ops : List Token} (hb : OperandText b) (hops : tokens b = ops) :
    classify (m.name ++ [' '] ++ b) = .operation m ops :=
  hops ▸ classify_operation m hb

theorem classify_textRegRegReg (m : Mnemonic) (a b c : RegIx) :
    classify (textRegRegReg Tables.standard m.name a b c)
      = .operation m [regText Tables.standard a, regText Tables.standard b, regText Tables.standard c] := by
  have hops := (operandText_regText a).comma ((operandText_regText b).comma (operandText_regText c))
  have hclass := classify_of_tokens m hops (by simp only [tokens_comma, tokens_regText]; rfl)
  simpa [textRegRegReg] using hclass

theorem classify_textRegRegInt (m : Mnemonic) (a b : RegIx) (v : Int) :
    classify (textRegRegInt Tables.standard m.name a b v)
      = .operation m [regText Tables.standard a, regText Tables.standard b, decText v] := by
  have hops := (operandText_regText a).comma ((operandText_regText b).comma (operandText_decText v))
  have hclass := classify_of_tokens m hops (by simp only [tokens_comma, tokens_regText, tokens_decText]; rfl)
  simpa [textRegRegInt] using hclass

theorem classify_textReg (m : Mnemonic) (a : RegIx) :
    classify (textReg Tables.standard m.name a) = .operation m [regText Tables.standard a] :=
  classify_of_tokens m (operandText_regText a) (tokens_regText a)

theorem classify_textRegImm (m : Mnemonic) (a : RegIx) (v : Int) :
    classify (textRegImm Tables.standard m.name a v) = .operation m [regText Tables.standard a, decText v] := by
  have hops := (operandText_regText a).comma (operandText_decText v)
  have hclass := classify_of_tokens m hops (by simp only [tokens_comma, tokens_regText, tokens_decText]; rfl)
  simpa [textRegImm] using hclass

theorem classify_textRegImmReg (m : Mnemonic) (a : RegIx) (v : Int) (b : RegIx) :
    classify (textRegImmReg Tables.standard m.name a v b)
      = .operation m [regText Tables.standard a, decText v, regText Tables.standard b] := by
  have hops := (operandText_regText a).comma ((operandText_decText v).offset (operandText_regText b))
  have hclass := classify_of_tokens m hops
    (by simp only [tokens_comma, tokens_offset, tokens_regText, tokens_decText]; rfl)
  simpa [textRegImmReg] using hclass

/-! ### The Encoder reads every printed line (R110) -/

theorem encoderFetch_of_operation {T : Tables} {l : Line} {m : Mnemonic} {ops : List Token} {i : Instr}
    (hclass : classify l = .operation m ops) (hread : readOperands T m ops = .ok i) : encoderFetch T l = .instr i := by
  simp [encoderFetch, hclass, hread]

theorem classify_nopText : classify nopText = .nop := by decide

/-- With the spec's tables the Encoder finds on a printed line the instruction it was printed for: its first token is
the mnemonic, and each operand reads back as its field. -/
theorem encoderFetch_render (i : Instr) : encoderFetch Tables.standard (render Tables.standard i) = .instr i := by
  cases i with
  | nop => simp [encoderFetch, render, textNop, classify_nopText]
  | add => exact encoderFetch_of_operation (classify_textRegRegReg (.r .add) ..) (readRegRegReg_texts standard_wf ..)
  | sub => exact encoderFetch_of_operation (classify_textRegRegReg (.r .sub) ..) (readRegRegReg_texts standard_wf ..)
  | and => exact encoderFetch_of_operation (classify_textRegRegReg (.r .and) ..) (readRegRegReg_texts standard_wf ..)
  | or => exact encoderFetch_of_operation (classify_textRegRegReg (.r .or) ..) (readRegRegReg_texts standard_wf ..)
  | xor => exact encoderFetch_of_operation (classify_textRegRegReg (.r .xor) ..) (readRegRegReg_texts standard_wf ..)
  | slt => exact encoderFetch_of_operation (classify_textRegRegReg (.r .slt) ..) (readRegRegReg_texts standard_wf ..)
  | sll => exact encoderFetch_of_operation (classify_textRegRegInt (.r .sll) ..) (readRegRegInt_unsigned standard_wf ..)
  | srl => exact encoderFetch_of_operation (classify_textRegRegInt (.r .srl) ..) (readRegRegInt_unsigned standard_wf ..)
  | jr => exact encoderFetch_of_operation (classify_textReg (.r .jr) ..) (readReg_texts standard_wf ..)
  | addi => exact encoderFetch_of_operation (classify_textRegRegInt (.i .addi) ..) (readRegRegInt_signed standard_wf ..)
  | slti => exact encoderFetch_of_operation (classify_textRegRegInt (.i .slti) ..) (readRegRegInt_signed standard_wf ..)
  | lui => exact encoderFetch_of_operation (classify_textRegImm (.i .lui) ..) (readRegImm_texts standard_wf ..)
  | lw => exact encoderFetch_of_operation (classify_textRegImmReg (.i .lw) ..) (readRegImmReg_texts standard_wf ..)
  | sw => exact encoderFetch_of_operation (classify_textRegImmReg (.i .sw) ..) (readRegImmReg_texts standard_wf ..)
  | beq => exact encoderFetch_of_operation (classify_textRegRegInt (.i .beq) ..) (readRegRegInt_signed standard_wf ..)
  | bne => exact encoderFetch_of_operation (classify_textRegRegInt (.i .bne) ..) (readRegRegInt_signed standard_wf ..)
  | j => exact encoderFetch_of_operation (classify_textAddr (.j .j) _) (readAddr_texts ..)
  | jal => exact encoderFetch_of_operation (classify_textAddr (.j .jal) _) (readAddr_texts ..)

theorem encodeLine_render (i : Instr) :
    encodeLine Tables.standard (render Tables.standard i) = .ok (.word (encodeWith Tables.standard i)) :=
  encodeLine_of_encoderFetch (encoderFetch_render i)

/-! ### The round trips through text (`45_decoder.md` R110, R111) -/

/-- A printed line is encoded to the canonical word, which the Decoder prints as that same line. -/
theorem printed_line_round_trip {w : Word} {t : Line} (h : decodeWord Tables.standard w = .ok (.text t)) :
    ∃ w', canonWith Tables.standard w = some w' ∧ encodeLine Tables.standard t = .ok (.word w')
      ∧ decodeWord Tables.standard w' = .ok (.text t) := by
  obtain ⟨i, hdecode, rfl⟩ := exists_decodeWith_of_decodeWord h
  exact ⟨encodeWith Tables.standard i, canonWith_of_decodeWith standard_wf hdecode, encodeLine_render i,
    decodeWord_of_decodeWith (decodeWith_encodeWith_of_decodeWith standard_wf hdecode)⟩

/-- Settles O54: both the line's word and the canonical word are the one of the round trip. -/
theorem decodedTextReencodesToTheCanonicalWord : Obligations.DecodedTextReencodesToTheCanonicalWord := by
  intro W t h
  obtain ⟨W', hcanon, hencode, hdecode⟩ := printed_line_round_trip h
  refine ⟨⟨W', hcanon, hencode, hdecode⟩, ?_⟩
  simp [hcanon, hencode]

/-- Settles O55: the word of an accepted line decodes to an instruction of the same word, whose text is read back. -/
theorem acceptedLinesComeBackCanonical : Obligations.AcceptedLinesComeBackCanonical := by
  refine ⟨fun L W h => ?printed, fun L W h => ?accepted⟩
  case printed =>
    obtain ⟨W', -, hencode, hdecode⟩ := printed_line_round_trip h
    exact ⟨W', hencode, hdecode⟩
  case accepted =>
    obtain ⟨i, -, hpayload⟩ := exists_encoderFetch_of_encodeLine h
    cases hpayload
    obtain ⟨i', hdecode, hsame⟩ := exists_decodeWith_encodeWith standard_wf i
    exact ⟨render Tables.standard i', decodeWord_of_decodeWith hdecode, hsame ▸ encodeLine_render i'⟩

/-! ### Canonical output (R78, R109, R111) -/

/-- Settles O56: nothing is delivered at reset. -/
theorem outputsCanonicalAtReset : Obligations.OutputsCanonicalAtReset where
  tablesStandard := reset_tables
  words := by simp
  texts := by simp

/-- A word comes from the Encoder only. -/
theorem encodeLine_of_transact_word {T : Tables} {q : Request} {w : Word} (h : transact T q = .ok (.ok (.word w))) :
    encodeLine T q.line = .ok (.word w) := by
  obtain ⟨agent, l⟩ := q
  cases agent with
  | encoder => exact Except.ok.inj h
  | decoder =>
    rw [transact_decoder] at h
    obtain hskip | ⟨w', -, hword⟩ := decodeLine_ok_cases h
    · cases hskip
    · cases hi : decodeWith T w' with
      | ok i =>
        rw [decodeWord_of_decodeWith hi] at hword
        cases hword
      | error k =>
        rw [decodeWord_of_error hi] at hword
        cases hword

/-- A text comes from the Decoder only, as the text of a word. -/
theorem exists_decodeWord_of_transact_text {T : Tables} {q : Request} {t : Line}
    (h : transact T q = .ok (.ok (.text t))) : ∃ w, decodeWord T w = .ok (.text t) := by
  obtain ⟨agent, l⟩ := q
  cases agent with
  | encoder =>
    obtain ⟨i, -, hpayload⟩ := exists_encoderFetch_of_encodeLine (Except.ok.inj h)
    cases hpayload
  | decoder =>
    rw [transact_decoder] at h
    obtain hskip | ⟨w, -, htext⟩ := decodeLine_ok_cases h
    · cases hskip
    · exact ⟨w, htext.symm⟩

/-- Settles O57: what a step adds is a word the Encoder produced, canonical by R78, or the text of a word, by R111. -/
theorem outputsStayCanonical : Obligations.OutputsStayCanonical := by
  intro s s' hs hstep
  obtain rfl | ⟨q, rest, r, -, hr, rfl⟩ := step_next_cases hstep
  · exact hs
  obtain ⟨htables, hwords, htexts⟩ := hs
  rw [htables] at hr
  refine ⟨htables, fun w hw => ?word, fun t ht => ?text⟩
  case word =>
    rcases List.mem_append.1 hw with hold | hnew
    · exact hwords w hold
    · rw [← List.mem_singleton.1 hnew] at hr
      obtain ⟨w', t, hpayload, hcanon, -⟩ :=
        encoderProducesCanonicalWords Tables.standard q.line _ standard_wf (encodeLine_of_transact_word hr)
      cases hpayload
      exact hcanon
  case text =>
    rcases List.mem_append.1 ht with hold | hnew
    · exact htexts t hold
    · rw [← List.mem_singleton.1 hnew] at hr
      obtain ⟨w, hdecode⟩ := exists_decodeWord_of_transact_text hr
      exact acceptedLinesComeBackCanonical.1 t w hdecode

end Sys2Proof.Machine

namespace Sys2Proof.Machine

/-! ### The laws between packing and unpacking (`40_bitfield_codec.md` R60, R62) -/

/-- The range of the signed reading (R55). -/
theorem unpackSigned_mem_range {w : Nat} (f : BitVec w) :
    -2 ^ (w - 1) ≤ unpackSigned f ∧ unpackSigned f ≤ 2 ^ (w - 1) - 1 :=
  ⟨BitVec.le_toInt f, Int.le_sub_one_of_lt BitVec.toInt_lt⟩

theorem two_pow_eq_half_add_half {w : Nat} (hw : 0 < w) : (2 : Int) ^ w = 2 ^ (w - 1) + 2 ^ (w - 1) := by
  rw [← two_mul, mul_pow_sub_one hw.ne']

/-- Packing keeps the residue, and of each residue class one member is in the signed range. -/
theorem unpackSigned_pack {w : Nat} (hw : 0 < w) (v : Int) :
    unpackSigned (pack v w) = (v + 2 ^ (w - 1)) % 2 ^ w - 2 ^ (w - 1) := by
  have hresidue : unpackSigned (pack v w) % 2 ^ w = v % 2 ^ w := pack_eq_pack_iff.1 (pack_unpackSigned _)
  have hhalves := two_pow_eq_half_add_half hw
  obtain ⟨hlow, hhigh⟩ := unpackSigned_mem_range (pack v w)
  have hshift : (v + 2 ^ (w - 1)) % 2 ^ w = unpackSigned (pack v w) + 2 ^ (w - 1) := by
    rw [Int.add_emod, ← hresidue, ← Int.add_emod]
    exact Int.emod_eq_of_lt (by linarith) (by linarith)
  rw [hshift, add_sub_cancel_right]

theorem unpackSigned_pack_eq_self_iff {w : Nat} (hw : 0 < w) (v : Int) :
    unpackSigned (pack v w) = v ↔ -2 ^ (w - 1) ≤ v ∧ v ≤ 2 ^ (w - 1) - 1 := by
  constructor
  · intro h
    exact h ▸ unpackSigned_mem_range (pack v w)
  · rintro ⟨hlow, hhigh⟩
    have hhalves := two_pow_eq_half_add_half hw
    rw [unpackSigned_pack hw, Int.emod_eq_of_lt (by linarith) (by linarith), add_sub_cancel_right]

theorem unpackUnsigned_pack_eq_self_iff (w : Nat) (v : Int) :
    unpackUnsigned (pack v w) = v ↔ 0 ≤ v ∧ v ≤ 2 ^ w - 1 := by
  constructor
  · intro h
    exact h ▸ ⟨unpackUnsigned_nonneg _, Int.le_sub_one_of_lt (unpackUnsigned_lt _)⟩
  · rintro ⟨hlow, hhigh⟩
    rw [unpackUnsigned_pack, Int.emod_eq_of_lt hlow (by linarith)]

/-- Settles O12: one lemma for each law. -/
theorem packUnpackLaws : Obligations.PackUnpackLaws :=
  fun w f v hw => ⟨unpackUnsigned_pack v w, pack_unpackUnsigned f, pack_unpackSigned f,
    unpackSigned_pack_eq_self_iff hw v, unpackSigned_pack hw v, unpackUnsigned_pack_eq_self_iff w v⟩

/-- One step of the early reduction: a further digit, modulo `2^26` (R62). -/
def reduceDigit (acc : Nat) (c : Char) : Nat := (10 * acc + (c.toNat - 48)) % 2 ^ 26

theorem reduceDigit_mod (acc : Nat) (c : Char) :
    reduceDigit (acc % 2 ^ 26) c = (10 * acc + (c.toNat - 48)) % 2 ^ 26 := by
  simp only [reduceDigit, Nat.add_mod, Nat.mul_mod, Nat.mod_mod]

/-- Reducing at every digit leaves the residue of the whole. -/
theorem foldl_reduceDigit {acc n : Nat} {cs : List Char} (h : digitsValue? acc cs = some n) :
    cs.foldl reduceDigit (acc % 2 ^ 26) = n % 2 ^ 26 := by
  induction cs generalizing acc with
  | nil => rw [List.foldl_nil, Option.some.inj h]
  | cons c cs ih =>
    rw [digitsValue?, digitValue?_eq] at h
    split at h
    · rename_i d hd
      obtain ⟨-, hd⟩ := Option.ite_none_right_eq_some.1 hd
      obtain rfl := Option.some.inj hd
      rw [List.foldl_cons, reduceDigit_mod, ih h]
    · cases h

/-- A field of at most 26 bits does not see a change of the integer by a multiple of `2^26`. -/
theorem pack_eq_pack_of_emod {w : Nat} (hw : w ≤ 26) {v v' : Int} (h : v % 2 ^ 26 = v' % 2 ^ 26) :
    pack v w = pack v' w := by
  have hdvd : (2 : Int) ^ w ∣ 2 ^ 26 := pow_dvd_pow 2 hw
  rw [pack_eq_pack_iff, ← Int.emod_emod_of_dvd v hdvd, h, Int.emod_emod_of_dvd v' hdvd]

/-- Settles O13: the reduced accumulator and the literal have the same residue, and so have their negatives. -/
theorem earlyReductionChangesNoField : Obligations.EarlyReductionChangesNoField := by
  intro cs n w hdigits hw acc
  have hacc : acc = n % 2 ^ 26 := foldl_reduceDigit (acc := 0) hdigits
  refine ⟨pack_eq_pack_of_emod hw ?_, pack_eq_pack_of_emod hw ?_⟩
  · omega
  · omega

end Sys2Proof.Machine

namespace Sys2Proof.Machine

/-! ### Numerals as lists of digits (`40_bitfield_codec.md` R58, R59) -/

theorem digitChar_toNat_sub {c : Char} (h : IsDigit c) : digitChar (c.toNat - 48) = c := by
  obtain ⟨hlow, -⟩ := (isDigit_iff c).1 h
  rw [digitChar, Nat.add_sub_cancel' hlow, Char.ofNat_toNat]

/-- A sequence of digit characters spells a list of digits. -/
theorem exists_map_digitChar {cs : List Char} (h : ∀ c ∈ cs, IsDigit c) :
    ∃ ds : List Nat, (∀ d ∈ ds, d < 10) ∧ cs = ds.map digitChar := by
  refine ⟨cs.map fun c => c.toNat - 48, fun d hd => ?_, ?_⟩
  · obtain ⟨c, hc, rfl⟩ := List.mem_map.1 hd
    have := (isDigit_iff c).1 (h c hc)
    omega
  · have hback : cs.map (digitChar ∘ fun c => c.toNat - 48) = cs.map id :=
      List.map_congr_left fun c hc => digitChar_toNat_sub (h c hc)
    rw [List.map_map, hback, List.map_id]

/-- Reading digits from left to right is base 10, the digits already read being the higher places. -/
theorem digitsValue?_map_digitChar (acc : Nat) {ds : List Nat} (h : ∀ d ∈ ds, d < 10) :
    digitsValue? acc (ds.map digitChar) = some (acc * 10 ^ ds.length + Nat.ofDigits 10 ds.reverse) := by
  induction ds generalizing acc with
  | nil => simp [digitsValue?]
  | cons d ds ih =>
    obtain ⟨hd, hds⟩ := List.forall_mem_cons.1 h
    rw [List.map_cons, digitsValue?, digitValue?_digitChar hd]
    simp only [ih _ hds, Nat.ofDigits_reverse_cons, List.length_cons]
    congr 1
    ring

/-- A numeral is one or more digits, and its value is theirs in base 10. -/
theorem numeralValue?_eq_some_iff {cs : List Char} {n : Nat} : numeralValue? cs = some n ↔
    ∃ ds : List Nat, ds ≠ [] ∧ (∀ d ∈ ds, d < 10) ∧ cs = ds.map digitChar ∧ n = Nat.ofDigits 10 ds.reverse := by
  have hread : ∀ ds : List Nat, ds ≠ [] → (∀ d ∈ ds, d < 10) →
      numeralValue? (ds.map digitChar) = some (Nat.ofDigits 10 ds.reverse) := by
    intro ds hne hlt
    obtain ⟨d, ds, rfl⟩ := List.exists_cons_of_ne_nil hne
    rw [List.map_cons, numeralValue?, ← List.map_cons, digitsValue?_map_digitChar 0 hlt, Nat.zero_mul, Nat.zero_add]
  constructor
  · intro h
    cases cs with
    | nil => cases h
    | cons c cs =>
      obtain ⟨ds, hlt, hds⟩ := exists_map_digitChar ((digitsValue?_isSome 0 (c :: cs)).1 ⟨n, h⟩)
      have hne : ds ≠ [] := by
        rintro rfl
        cases hds
      rw [hds, hread ds hne hlt] at h
      exact ⟨ds, hne, hlt, hds, (Option.some.inj h).symm⟩
  · rintro ⟨ds, hne, hlt, rfl, rfl⟩
    exact hread ds hne hlt

theorem numeralValue?_minus_cons (cs : List Char) : numeralValue? ('-' :: cs) = none := rfl

/-- An integer literal is a numeral, or a minus sign and a numeral. -/
theorem intOperand_eq_ok_iff {tok : Token} {v : Int} : intOperand tok = .ok v ↔
    (∃ n : Nat, numeralValue? tok = some n ∧ v = n)
      ∨ ∃ cs, ∃ n : Nat, tok = '-' :: cs ∧ numeralValue? cs = some n ∧ v = -n := by
  cases tok with
  | nil => simp [intOperand, numeralValue?]
  | cons c cs =>
    by_cases hc : c = '-'
    · subst hc
      cases hn : numeralValue? cs <;> simp [intOperand, hn, numeralValue?_minus_cons, eq_comm]
    · cases hn : numeralValue? (c :: cs) <;> simp [intOperand, hc, hn, eq_comm]

theorem intOperand_error {tok : Token} {k : ErrorKind} (h : intOperand tok = .error k) : k = .malformedOperand := by
  unfold intOperand at h
  split at h
  · exact (Except.error.inj h).symm
  · split_ifs at h
    · split at h <;> cases h
      rfl
    · split at h <;> cases h
      rfl

/-- Settles O15: a literal is a numeral with or without a sign, and a numeral a list of digits. -/
theorem integerLiteralsAreBaseTen : Obligations.IntegerLiteralsAreBaseTen := by
  refine ⟨fun tok v => ?_, fun _ _ h => intOperand_error h⟩
  rw [intOperand_eq_ok_iff]
  simp only [numeralValue?_eq_some_iff]
  constructor
  · rintro (⟨_, ⟨ds, hne, hlt, htok, rfl⟩, hv⟩ | ⟨_, _, htok, ⟨ds, hne, hlt, rfl, rfl⟩, hv⟩)
    · exact ⟨ds, hne, hlt, .inl ⟨htok, hv⟩⟩
    · exact ⟨ds, hne, hlt, .inr ⟨htok, hv⟩⟩
  · rintro ⟨ds, hne, hlt, ⟨htok, hv⟩ | ⟨htok, hv⟩⟩
    · exact .inl ⟨_, ⟨ds, hne, hlt, htok, rfl⟩, hv⟩
    · exact .inr ⟨_, _, htok, ⟨ds, hne, hlt, rfl, rfl⟩, hv⟩

/-! ### The shortest numeral (R59, R61) -/

theorem natDigits_eq_digits {fuel n : Nat} (hfuel : n ≤ fuel) (hn : 0 < n) :
    natDigits fuel n = (Nat.digits 10 n).reverse.map digitChar := by
  induction fuel generalizing n with
  | zero => omega
  | succ fuel ih =>
    unfold natDigits
    split
    · rw [Nat.digits_of_lt 10 n hn.ne' ‹_›]
      rfl
    · rw [ih (by omega) (by omega), Nat.digits_def' (by decide) hn]
      simp

/-- The text of a positive number is its digits in base 10, most significant first. -/
theorem natText_eq_digits {n : Nat} (hn : 0 < n) : natText n = (Nat.digits 10 n).reverse.map digitChar :=
  natDigits_eq_digits le_rfl hn

theorem decText_natCast (n : Nat) : decText n = natText n := by
  simp [decText]

theorem decText_neg_natCast {n : Nat} (hn : 0 < n) : decText (-n) = '-' :: natText n := by
  simp [decText, hn]

/-- Settles O17: the digits are those of base 10, the first of which is not 0. -/
theorem decimalTextIsShortest : Obligations.DecimalTextIsShortest := by
  refine ⟨by decide, fun n hn => ?positive, fun n hn => ?negative⟩
  case positive =>
    refine ⟨(Nat.digits 10 n).reverse, ?text, ?range, ?noLeadingZero, ?nonempty, ?value⟩
    case text => rw [decText_natCast, natText_eq_digits hn]
    case range => exact fun d hd => Nat.digits_lt_base (by decide) (List.mem_reverse.1 hd)
    case noLeadingZero =>
      have hlast := Nat.getLast_digit_ne_zero 10 hn.ne'
      rw [List.head?_reverse, List.getLast?_eq_some_getLast (Nat.digits_ne_nil_iff_ne_zero.2 hn.ne')]
      simpa using hlast
    case nonempty => exact List.reverse_ne_nil_iff.2 (Nat.digits_ne_nil_iff_ne_zero.2 hn.ne')
    case value => rw [List.reverse_reverse, Nat.ofDigits_digits]
  case negative => rw [decText_neg_natCast hn, decText_natCast]

/-- A numeral is printed as written exactly when `0` stands in front of nothing. -/
theorem natText_eq_iff_of_numeralValue? {cs : List Char} {n : Nat} (h : numeralValue? cs = some n) :
    natText n = cs ↔ ∀ l, cs = '0' :: l → l = [] := by
  constructor
  · rintro rfl l hl
    have hn : n = 0 := by
      by_contra hne
      exact head_natDigits le_rfl hne (congrArg List.head? hl)
    subst hn
    exact (List.cons.inj hl).2.symm
  · intro hshort
    obtain ⟨ds, hne, hlt, rfl, rfl⟩ := numeralValue?_eq_some_iff.1 h
    obtain ⟨d, ds, rfl⟩ := List.exists_cons_of_ne_nil hne
    by_cases hd : d = 0
    · subst hd
      obtain rfl : ds = [] := by simpa using hshort (ds.map digitChar) rfl
      rfl
    · have hdigits : Nat.digits 10 (Nat.ofDigits 10 (d :: ds).reverse) = (d :: ds).reverse :=
        Nat.digits_ofDigits 10 (by decide) _ (fun d hd => hlt d (List.mem_reverse.1 hd)) (by simpa using hd)
      have hpos : Nat.ofDigits 10 (d :: ds).reverse ≠ 0 := by
        rw [← Nat.digits_ne_nil_iff_ne_zero (b := 10), hdigits]
        simp
      rw [natText_eq_digits (Nat.pos_of_ne_zero hpos), hdigits, List.reverse_reverse]

/-- Settles O16: printing and reading are inverse, and a literal is its own numeral's text, sign included, exactly when it
has no needless zero. -/
theorem numeralsRoundTrip : Obligations.NumeralsRoundTrip := by
  refine ⟨intOperand_decText, fun tok v h => ?_⟩
  obtain ⟨n, hn, rfl⟩ | ⟨cs, n, rfl, hn, rfl⟩ := intOperand_eq_ok_iff.1 h
  · have hsign : ∀ cs, tok ≠ '-' :: cs := by
      rintro cs rfl
      cases hn
    rw [decText_natCast, natText_eq_iff_of_numeralValue? hn]
    constructor
    · intro hshort
      refine ⟨hsign _, fun ds hds => ?_⟩
      rcases hds with hds | hds
      · exact hshort ds hds
      · exact absurd hds (hsign _)
    · exact fun hshort l hl => hshort.2 l (.inl hl)
  · have hzeros : (∀ ds, '-' :: cs = '0' :: ds ∨ '-' :: cs = '-' :: '0' :: ds → ds = []) ↔ natText n = cs := by
      rw [natText_eq_iff_of_numeralValue? hn]
      simp
    rw [hzeros]
    rcases Nat.eq_zero_or_pos n with rfl | hpos
    · constructor
      · intro hprinted
        cases hprinted
      · rintro ⟨hminusZero, rfl⟩
        exact absurd rfl hminusZero
    · have hminusZero : '-' :: cs ≠ "-0".toList := by
        intro htok
        obtain rfl : cs = ['0'] := (List.cons.inj htok).2
        exact hpos.ne (Option.some.inj hn)
      rw [decText_neg_natCast hpos, and_iff_right hminusZero]
      exact List.cons_inj_right '-'

end Sys2Proof.Machine

namespace Sys2Proof.Machine

/-! ### The Format Tables read both ways (`10_state.md` R14, R26) -/

theorem rFind?_eq_some_iff {T : Tables} (hT : T.wf = true) {op : ROp} {c : Code} :
    T.rTable.find? c = some op ↔ T.rTable.code op = c :=
  ⟨code_of_rFind?, fun h => h ▸ rFind?_code hT op⟩

theorem iFind?_eq_some_iff {T : Tables} (hT : T.wf = true) {op : IOp} {c : Code} :
    T.iTable.find? c = some op ↔ T.iTable.code op = c :=
  ⟨code_of_iFind?, fun h => h ▸ iFind?_code hT op⟩

theorem jFind?_eq_some_iff {T : Tables} (hT : T.wf = true) {op : JOp} {c : Code} :
    T.jTable.find? c = some op ↔ T.jTable.code op = c :=
  ⟨code_of_jFind?, fun h => h ▸ jFind?_code hT op⟩

theorem ofToken?_eq_some_iff {tok : Token} {m : Mnemonic} : Mnemonic.ofToken? tok = some m ↔ m.name = tok :=
  ⟨name_of_ofToken?, fun h => h ▸ ofToken?_name m⟩

/-- Settles O19: each lookup is inverse to its table, and the codes of admissible tables are kept apart. -/
theorem formatTablesAreBijections : Obligations.FormatTablesAreBijections :=
  fun _ hT => ⟨fun _ _ => rFind?_eq_some_iff hT, fun _ _ => iFind?_eq_some_iff hT, fun _ _ => jFind?_eq_some_iff hT,
    iCode_ne_jCode hT, iCode_ne_zero hT, jCode_ne_zero hT, fun _ _ => ofToken?_eq_some_iff, nop_is_no_mnemonic⟩

/-! ### Comments, whitespace and delimiters (`41_encoder_frontend.md` R64, R65, R69) -/

theorem isWs_iff (c : Char) : isWs c = true ↔ c ∈ ['\t', '\n', '\x0b', '\x0c', '\r', ' '] := by
  simp [isWs, or_assoc]

theorem isWs_eq_false_iff (c : Char) : isWs c = false ↔ c ∉ ['\t', '\n', '\x0b', '\x0c', '\r', ' '] := by
  rw [← isWs_iff, Bool.not_eq_true]

theorem isDelimiter_iff (c : Char) :
    isDelimiter c = true ↔ c ∈ [',', '(', ')', '\t', '\n', '\x0b', '\x0c', '\r', ' '] := by
  simp [isDelimiter, isWs, or_assoc]

theorem isDelimiter_eq_false_iff (c : Char) :
    isDelimiter c = false ↔ c ∉ [',', '(', ')', '\t', '\n', '\x0b', '\x0c', '\r', ' '] := by
  rw [← isDelimiter_iff, Bool.not_eq_true]

/-- Settles O20: what follows the kept part is empty or begins with the marker; trimming is `trim_spec`. -/
theorem commentAndOuterWhitespaceAreRemoved : Obligations.CommentAndOuterWhitespaceAreRemoved := by
  refine ⟨fun l => ?comment, fun s => ?whitespace⟩
  case comment =>
    refine ⟨l.dropWhile (· != commentChar), List.takeWhile_append_dropWhile.symm, fun hmem => ?_, ?_⟩
    · have hkept : ('#' != commentChar) = true := List.mem_takeWhile_imp (p := (· != commentChar)) hmem
      revert hkept
      decide
    · have hhead := List.head?_dropWhile_not (· != commentChar) l
      cases hrest : l.dropWhile (· != commentChar) with
      | nil => exact .inl rfl
      | cons c rest =>
        rw [hrest] at hhead
        exact .inr (by simpa [commentChar] using hhead)
  case whitespace =>
    obtain ⟨a, b, hs, ha, hb, hhead, hlast⟩ := trim_spec s
    refine ⟨a, b, hs, fun c hc => ?_, fun c hc => ?_⟩
    · exact (isWs_iff c).1 ((List.mem_append.1 hc).elim (ha c) (hb c))
    · exact (isWs_eq_false_iff c).1 (hc.elim (hhead c) (hlast c))

/-- Settles O23: its list of characters is the set of delimiters. -/
theorem tokensAreSplitAtDelimiters : Obligations.TokensAreSplitAtDelimiters :=
  ⟨fun a b d hd => tokens_append_delimiter a d b ((isDelimiter_iff d).2 hd),
    fun _ hne hplain => tokens_of_no_delimiter hne fun c hc => (isDelimiter_eq_false_iff c).2 (hplain c hc), rfl⟩

/-! ### The classification of a line, test by test (R63, R65 to R71) -/

theorem classify_eq_skip_iff {l : Line} : classify l = .skip ↔ trim (stripComment l) = []
    ∨ (trim (stripComment l)).head? = some '.' ∨ (trim (stripComment l)).getLast? = some ':' := by
  constructor
  · intro h
    by_contra hnone
    obtain ⟨hempty, hdirective, hlabel⟩ := by simpa only [not_or] using hnone
    simp only [classify, hempty, directiveChar, hdirective, labelChar, hlabel, if_false] at h
    split_ifs at h
    split at h
    · cases h
    · split at h <;> cases h
  · rintro (h | h | h)
    · simp [classify, h]
    · simp [classify, h, directiveChar]
    · simp [classify, h, labelChar]

/-- A line that is neither skipped nor the literal `nop` is that operation which its first token names. -/
theorem classify_of_mnemonic {l : Line} {tok : Token} {ops : List Token} {m : Mnemonic} (hskip : classify l ≠ .skip)
    (hnop : trim (stripComment l) ≠ nopText) (htokens : tokens (trim (stripComment l)) = tok :: ops)
    (htok : Mnemonic.ofToken? tok = some m) : classify l = .operation m ops := by
  revert hskip
  simp only [classify, hnop, htokens, htok, if_false]
  split_ifs <;> simp

/-- A line of delimiters only is no instruction (R70). -/
theorem classify_of_no_tokens {l : Line} (hskip : classify l ≠ .skip) (hnop : trim (stripComment l) ≠ nopText)
    (htokens : tokens (trim (stripComment l)) = []) : classify l = .unknown := by
  revert hskip
  simp only [classify, hnop, htokens, if_false]
  split_ifs <;> simp

/-! ### Operations (R72 to R76) -/

theorem encodeOperation_eq_error_iff {T : Tables} {m : Mnemonic} {ops : List Token} {k : ErrorKind} :
    encodeOperation T m ops = .error k ↔ readOperands T m ops = .error k := by
  unfold encodeOperation
  cases readOperands T m ops <;> simp [Except.map]

theorem encodeLine_of_operation_error {T : Tables} {l : Line} {m : Mnemonic} {ops : List Token} {k : ErrorKind}
    (h : classify l = .operation m ops) (hk : encodeOperation T m ops = .error k) : encodeLine T l = .error k := by
  simp [encodeLine, encoderFetch, h, encodeOperation_eq_error_iff.1 hk, Fetched.result]

/-- Every line falls in one of four classes, each with its result. -/
theorem encodeLine_cases (T : Tables) (l : Line) :
    (classify l = .skip ∧ encodeLine T l = .skip)
      ∨ (classify l = .nop ∧ encodeLine T l = .ok (.word 0#32))
      ∨ (classify l = .unknown ∧ encodeLine T l = .error .unknownMnemonic)
      ∨ ∃ m ops, classify l = .operation m ops
        ∧ ((∃ w, encodeOperation T m ops = .ok w ∧ encodeLine T l = .ok (.word w))
          ∨ ∃ k, encodeOperation T m ops = .error k ∧ encodeLine T l = .error k) := by
  cases hclass : classify l with
  | skip => exact .inl ⟨rfl, encodeLine_of_skip T hclass⟩
  | nop => exact .inr (.inl ⟨rfl, encodeLine_of_nop T hclass⟩)
  | unknown => exact .inr (.inr (.inl ⟨rfl, encodeLine_of_unknown T hclass⟩))
  | operation m ops =>
    refine .inr (.inr (.inr ⟨m, ops, rfl, ?_⟩))
    cases hop : encodeOperation T m ops with
    | ok w => exact .inl ⟨w, rfl, encodeLine_of_operation hclass hop⟩
    | error k => exact .inr ⟨k, rfl, encodeLine_of_operation_error hclass hop⟩

theorem encodeLine_eq_skip_iff {T : Tables} {l : Line} : encodeLine T l = .skip ↔ classify l = .skip := by
  refine ⟨fun h => ?_, encodeLine_of_skip T⟩
  obtain ⟨hclass, -⟩ | ⟨-, he⟩ | ⟨-, he⟩ | ⟨m, ops, -, ⟨w, -, he⟩ | ⟨k, -, he⟩⟩ := encodeLine_cases T l
  · exact hclass
  all_goals
    rw [he] at h
    cases h

/-- Settles O21: only the class of skipped lines gives a skip. -/
theorem skippedLinesAreExactlyThree : Obligations.SkippedLinesAreExactlyThree :=
  fun _ _ => encodeLine_eq_skip_iff.trans classify_eq_skip_iff

/-- Settles O22: the literal is recognised before any table is read, and none of the three spellings is a mnemonic. -/
theorem nopLineGivesTheZeroWord : Obligations.NopLineGivesTheZeroWord := by
  refine ⟨fun T l hline => encodeLine_of_nop T (classify_of_nopText hline), ?_⟩
  intro T l tok ops hskip hnop htokens htok
  have hunknown : Mnemonic.ofToken? tok = none := by
    simp only [List.mem_cons, List.not_mem_nil, or_false] at htok
    rcases htok with rfl | rfl | rfl <;> decide
  exact encodeLine_of_unknown T
    (classify_of_unknown_mnemonic (mt (encodeLine_of_skip T) hskip) hnop htokens hunknown)

/-- Settles O24: each test of the algorithm leads to the class of lines it stands for. -/
theorem encodeLineFollowsItsSteps : Obligations.EncodeLineFollowsItsSteps := by
  intro T l
  dsimp only
  split_ifs with hempty hdirective hlabel hnop
  · exact encodeLine_of_skip T (classify_eq_skip_iff.2 (.inl hempty))
  · exact encodeLine_of_skip T (classify_eq_skip_iff.2 (.inr (.inl hdirective)))
  · exact encodeLine_of_skip T (classify_eq_skip_iff.2 (.inr (.inr hlabel)))
  · exact encodeLine_of_nop T (classify_of_nopText hnop)
  · have hskip : classify l ≠ .skip := by
      rw [Ne, classify_eq_skip_iff]
      tauto
    cases htokens : tokens (trim (stripComment l)) with
    | nil => exact encodeLine_of_unknown T (classify_of_no_tokens hskip hnop htokens)
    | cons tok ops =>
      cases htok : Mnemonic.ofToken? tok with
      | none => simpa [htok] using encodeLine_of_unknown T (classify_of_unknown_mnemonic hskip hnop htokens htok)
      | some m =>
        have hclass := classify_of_mnemonic hskip hnop htokens htok
        cases hop : encodeOperation T m ops with
        | ok w => simpa [htok, hop] using encodeLine_of_operation hclass hop
        | error k => simpa [htok, hop] using encodeLine_of_operation_error hclass hop

/-! ### The operand count (R72) -/

section ReadCount
variable (T : Tables) {ops : List Token}

theorem readReg_of_count (mk : RegIx → Instr) (hcount : ∀ a, ops ≠ [a]) :
    readReg T mk ops = .error .malformedOperand := by
  unfold readReg
  split
  · exact absurd rfl (hcount _)
  · rfl

theorem readRegImm_of_count (mk : RegIx → Imm → Instr) (hcount : ∀ a b, ops ≠ [a, b]) :
    readRegImm T mk ops = .error .malformedOperand := by
  unfold readRegImm
  split
  · exact absurd rfl (hcount _ _)
  · rfl

theorem readRegImmReg_of_count (mk : RegIx → Imm → RegIx → Instr) (hcount : ∀ a b c, ops ≠ [a, b, c]) :
    readRegImmReg T mk ops = .error .malformedOperand := by
  unfold readRegImmReg
  split
  · exact absurd rfl (hcount _ _ _)
  · rfl

end ReadCount

theorem readOperands_of_length_ne (T : Tables) {m : Mnemonic} {ops : List Token}
    (h : ops.length ≠ (operandSchema m).length) : readOperands T m ops = .error .malformedOperand := by
  have hcount : ∀ l : List Token, l.length = (operandSchema m).length → ops ≠ l := fun l hl e => h (e ▸ hl)
  cases m with
  | r op =>
    cases op with
    | add | sub | and | or | xor | slt => exact readRegRegReg_of_count T (fun _ _ _ => hcount _ rfl) _
    | sll | srl => exact readRegRegInt_of_count T (fun _ _ _ => hcount _ rfl) 5 _
    | jr => exact readReg_of_count T _ fun _ => hcount _ rfl
  | i op =>
    cases op with
    | addi | slti | beq | bne => exact readRegRegInt_of_count T (fun _ _ _ => hcount _ rfl) 16 _
    | lui => exact readRegImm_of_count T _ fun _ _ => hcount _ rfl
    | lw | sw => exact readRegImmReg_of_count T _ fun _ _ _ => hcount _ rfl
  | j op =>
    cases op with
    | j | jal => exact readAddr_of_count _ fun _ => hcount _ rfl

/-- Settles O25: the arity is the length of the mnemonic's schema. -/
theorem operandCountIsCheckedFirst : Obligations.OperandCountIsCheckedFirst := by
  intro T m ops h
  have harity : (operandSchema m).length =
      if m ∈ [.r .jr, .j .j, .j .jal] then 1 else if m = .i .lui then 2 else 3 := by
    rcases m with op | op | op <;> cases op <;> rfl
  exact encodeOperation_eq_error_iff.2 (readOperands_of_length_ne T (harity ▸ h))

/-! ### The first failing operand (R74, R75) -/

/-- Reading a register first and then the rest fails with the first error of the two. -/
theorem bind_regOperand_eq_error_iff {T : Tables} {tok : Token} {f : RegIx → Except ErrorKind Instr}
    {rest : List (Option ErrorKind)} {k : ErrorKind} (hrest : ∀ i, f i = .error k ↔ rest.findSome? id = some k) :
    regOperand T tok >>= f = .error k ↔ (operandError T true tok :: rest).findSome? id = some k := by
  cases hread : regOperand T tok with
  | ok i => simp [operandError, hread, bind, Except.bind, hrest]
  | error k' => simp [operandError, hread, bind, Except.bind]

/-- Reading an integer first and then the rest fails with the first error of the two. -/
theorem bind_intOperand_eq_error_iff {T : Tables} {tok : Token} {f : Int → Except ErrorKind Instr}
    {rest : List (Option ErrorKind)} {k : ErrorKind} (hrest : ∀ v, f v = .error k ↔ rest.findSome? id = some k) :
    intOperand tok >>= f = .error k ↔ (operandError T false tok :: rest).findSome? id = some k := by
  cases hread : intOperand tok with
  | ok v => simp [operandError, hread, bind, Except.bind, hrest]
  | error k' => simp [operandError, hread, bind, Except.bind]

/-- When every operand is read, there is no error. -/
theorem pure_eq_error_iff (i : Instr) (k : ErrorKind) :
    (pure i : Except ErrorKind Instr) = .error k ↔ ([] : List (Option ErrorKind)).findSome? id = some k :=
  iff_of_false nofun nofun

section ReadErrors
variable (T : Tables) (k : ErrorKind) (a b c : Token)

theorem readRegRegReg_eq_error_iff (mk : RegIx → RegIx → RegIx → Instr) : readRegRegReg T mk [a, b, c] = .error k ↔
    [operandError T true a, operandError T true b, operandError T true c].findSome? id = some k :=
  bind_regOperand_eq_error_iff fun _ => bind_regOperand_eq_error_iff fun _ => bind_regOperand_eq_error_iff fun _ =>
    pure_eq_error_iff _ k

theorem readRegRegInt_eq_error_iff (w : Nat) (mk : RegIx → RegIx → BitVec w → Instr) :
    readRegRegInt T w mk [a, b, c] = .error k ↔
      [operandError T true a, operandError T true b, operandError T false c].findSome? id = some k :=
  bind_regOperand_eq_error_iff fun _ => bind_regOperand_eq_error_iff fun _ => bind_intOperand_eq_error_iff fun _ =>
    pure_eq_error_iff _ k

theorem readReg_eq_error_iff (mk : RegIx → Instr) :
    readReg T mk [a] = .error k ↔ [operandError T true a].findSome? id = some k :=
  bind_regOperand_eq_error_iff fun _ => pure_eq_error_iff _ k

theorem readRegImm_eq_error_iff (mk : RegIx → Imm → Instr) : readRegImm T mk [a, b] = .error k ↔
    [operandError T true a, operandError T false b].findSome? id = some k :=
  bind_regOperand_eq_error_iff fun _ => bind_intOperand_eq_error_iff fun _ => pure_eq_error_iff _ k

theorem readRegImmReg_eq_error_iff (mk : RegIx → Imm → RegIx → Instr) : readRegImmReg T mk [a, b, c] = .error k ↔
    [operandError T true a, operandError T false b, operandError T true c].findSome? id = some k :=
  bind_regOperand_eq_error_iff fun _ => bind_intOperand_eq_error_iff fun _ => bind_regOperand_eq_error_iff fun _ =>
    pure_eq_error_iff _ k

theorem readAddr_eq_error_iff (mk : Addr → Instr) :
    readAddr mk [a] = .error k ↔ [operandError T false a].findSome? id = some k :=
  bind_intOperand_eq_error_iff fun _ => pure_eq_error_iff _ k

end ReadErrors

/-- With the right count, the operands' error is that of the first failing place of the schema. -/
theorem readOperands_eq_error_iff (T : Tables) {m : Mnemonic} {ops : List Token} (k : ErrorKind)
    (h : ops.length = (operandSchema m).length) :
    readOperands T m ops = .error k ↔
      (List.zipWith (operandError T) (operandSchema m) ops).findSome? id = some k := by
  cases m with
  | r op =>
    cases op with
    | add | sub | and | or | xor | slt =>
      obtain ⟨a, b, c, rfl⟩ := List.length_eq_three.1 h
      exact readRegRegReg_eq_error_iff T k a b c _
    | sll | srl =>
      obtain ⟨a, b, c, rfl⟩ := List.length_eq_three.1 h
      exact readRegRegInt_eq_error_iff T k a b c 5 _
    | jr =>
      obtain ⟨a, rfl⟩ := List.length_eq_one_iff.1 h
      exact readReg_eq_error_iff T k a _
  | i op =>
    cases op with
    | addi | slti | beq | bne =>
      obtain ⟨a, b, c, rfl⟩ := List.length_eq_three.1 h
      exact readRegRegInt_eq_error_iff T k a b c 16 _
    | lui =>
      obtain ⟨a, b, rfl⟩ := List.length_eq_two.1 h
      exact readRegImm_eq_error_iff T k a b _
    | lw | sw =>
      obtain ⟨a, b, c, rfl⟩ := List.length_eq_three.1 h
      exact readRegImmReg_eq_error_iff T k a b c _
  | j op =>
    obtain ⟨a, rfl⟩ : ∃ a, ops = [a] := List.length_eq_one_iff.1 (by cases op <;> exact h)
    cases op with
    | j | jal => exact readAddr_eq_error_iff T k a _

/-- Settles O27: encoding keeps the errors of reading. -/
theorem firstFailingOperandIsReported : Obligations.FirstFailingOperandIsReported :=
  fun T _ _ h k => encodeOperation_eq_error_iff.trans (readOperands_eq_error_iff T k h)

/-! ### The error kinds of each agent (R78, R104, R114) -/

theorem regOperand_error {T : Tables} {tok : Token} {k : ErrorKind} (h : regOperand T tok = .error k) :
    k = .malformedOperand ∨ k = .unknownRegister := by
  by_cases hsigil : tok.head? = some sigil
  · obtain ⟨n, rfl⟩ := List.head?_eq_some_iff.1 hsigil
    rw [regOperand_sigil_cons] at h
    exact .inr (regIndex_eq_error.1 h).1
  · rw [regOperand_of_head?_ne_sigil T hsigil] at h
    exact .inl (Except.error.inj h).symm

theorem operandError_eq_some {T : Tables} {register : Bool} {tok : Token} {k : ErrorKind}
    (h : operandError T register tok = some k) : k = .malformedOperand ∨ k = .unknownRegister := by
  cases register with
  | true =>
    cases hread : regOperand T tok with
    | ok i => simp [operandError, hread] at h
    | error k' =>
      obtain rfl : k' = k := by simpa [operandError, hread] using h
      exact regOperand_error hread
  | false =>
    cases hread : intOperand tok with
    | ok v => simp [operandError, hread] at h
    | error k' =>
      obtain rfl : k' = k := by simpa [operandError, hread] using h
      exact .inl (intOperand_error hread)

/-- An operation fails for its count or for one of its operands. -/
theorem encodeOperation_error {T : Tables} {m : Mnemonic} {ops : List Token} {k : ErrorKind}
    (h : encodeOperation T m ops = .error k) : k = .malformedOperand ∨ k = .unknownRegister := by
  rw [encodeOperation_eq_error_iff] at h
  by_cases hcount : ops.length = (operandSchema m).length
  · rw [readOperands_eq_error_iff T k hcount] at h
    obtain ⟨e, he, hk⟩ := List.exists_of_findSome?_eq_some h
    obtain ⟨n, hn, rfl⟩ := List.mem_iff_getElem.1 he
    rw [List.getElem_zipWith] at hk
    exact operandError_eq_some hk
  · rw [readOperands_of_length_ne T hcount] at h
    exact .inl (Except.error.inj h).symm

theorem encodeLine_error {T : Tables} {l : Line} {k : ErrorKind} (h : encodeLine T l = .error k) :
    k = .unknownMnemonic ∨ k = .malformedOperand ∨ k = .unknownRegister := by
  obtain ⟨-, he⟩ | ⟨-, he⟩ | ⟨-, he⟩ | ⟨m, ops, -, ⟨w, -, he⟩ | ⟨k', hk', he⟩⟩ := encodeLine_cases T l
  all_goals
    rw [he] at h
    cases h
  · exact .inl rfl
  · exact .inr (encodeOperation_error hk')

theorem decodeWord_error {T : Tables} {w : Word} {k : ErrorKind} (h : decodeWord T w = .error k) :
    k = .unknownOpcode ∨ k = .unknownFunct := by
  obtain ⟨hkind, -⟩ | ⟨hkind, -⟩ := decodeWith_error_cases (decodeWord_eq_error_iff.1 h)
  · exact .inr hkind
  · exact .inl hkind

/-- Settles O28: a line's error is its word's for the Decoder, and its mnemonic's or operation's for the Encoder. -/
theorem eachAgentHasItsOwnErrors : Obligations.EachAgentHasItsOwnErrors := by
  refine ⟨fun _ _ _ => encodeLine_error, fun _ _ _ => decodeWord_error, fun T l k h => ?_⟩
  obtain hskip | ⟨w, -, hword⟩ := decodeLine_ok_cases h
  · cases hskip
  · exact decodeWord_error hword.symm

end Sys2Proof.Machine

namespace Sys2Proof.Machine

/-! ### The printed forms with the sigils beside their separators (`45_decoder.md` R105) -/

theorem textReg_eq (T : Tables) (m : Line) (a : RegIx) : textReg T m a = m ++ " $".toList ++ regName T a := by
  simp [textReg, regText, sigil]

theorem textRegImm_eq (T : Tables) (m : Line) (a : RegIx) (v : Int) :
    textRegImm T m a v = m ++ " $".toList ++ regName T a ++ ", ".toList ++ decText v := by
  simp [textRegImm, regText, commaText, sigil]

theorem textRegImmReg_eq (T : Tables) (m : Line) (a : RegIx) (v : Int) (b : RegIx) :
    textRegImmReg T m a v b =
      m ++ " $".toList ++ regName T a ++ ", ".toList ++ decText v ++ "($".toList ++ regName T b ++ ")".toList := by
  simp [textRegImmReg, regText, commaText, sigil]

/-! ### Reading the shorter and the offset operand lists (`41_encoder_frontend.md` R72 to R75) -/

section ReadOthers
variable (T : Tables) {α : Type} (f : Instr → α)

theorem map_readReg (mk : RegIx → Instr) (a : Token) :
    (readReg T mk [a]).map f = do
      let x ← regOperand T a
      return f (mk x) := by
  change f <$> readReg T mk [a] = _
  simp [readReg]

theorem map_readRegImm (mk : RegIx → Imm → Instr) (a b : Token) :
    (readRegImm T mk [a, b]).map f = do
      let x ← regOperand T a
      let v ← intOperand b
      return f (mk x (pack v 16)) := by
  change f <$> readRegImm T mk [a, b] = _
  simp [readRegImm]

theorem map_readRegImmReg (mk : RegIx → Imm → RegIx → Instr) (a b c : Token) :
    (readRegImmReg T mk [a, b, c]).map f = do
      let x ← regOperand T a
      let v ← intOperand b
      let y ← regOperand T c
      return f (mk x (pack v 16) y) := by
  change f <$> readRegImmReg T mk [a, b, c] = _
  simp [readRegImmReg]

end ReadOthers

/-! ### The other R-format translations (`42_r_format.md` R82 to R86, R88, R89) -/

/-- Settles O32: as for `add`, each with the funct of its own table entry. -/
theorem threeRegisterInstructionsTranslateBothWays : Obligations.ThreeRegisterInstructionsTranslateBothWays := by
  intro T hT p hp
  simp only [List.mem_cons, List.not_mem_nil, or_false] at hp
  rcases hp with rfl | rfl | rfl | rfl | rfl
  all_goals
    refine ⟨fun ops => ?_, fun W hopcode hfunct => ?_⟩
    · split
      · exact map_readRegRegReg T (encodeWith T) _ _ _ _
      · exact encodeOperation_eq_error_iff.2 (readRegRegReg_of_count T ‹_› _)
    · rw [decodeWord_of_rCode hT hopcode hfunct]
      exact congrArg (fun t => Result.ok (.text t)) (textRegRegReg_eq T _ _ _ _)

/-- Settles O34: as for `sll`, but its funct is not 0, so no word of it is `nop`'s. -/
theorem srlTranslatesBothWays : Obligations.SrlTranslatesBothWays := by
  intro T hT
  refine ⟨fun ops => ?encode, fun W hopcode hfunct => ?decode⟩
  case encode =>
    split
    · exact map_readRegRegInt T (encodeWith T) 5 _ _ _ _
    · exact encodeOperation_eq_error_iff.2 (readRegRegInt_of_count T ‹_› 5 _)
  case decode =>
    rw [decodeWord_of_rCode (op := .srl) hT hopcode hfunct]
    exact congrArg (fun t => Result.ok (.text t)) (textRegRegInt_eq T (ROp.name .srl) _ _ _)

/-- Settles O35: one register in rs; the decoder's arm reads no other field. -/
theorem jrTranslatesBothWays : Obligations.JrTranslatesBothWays := by
  intro T hT
  refine ⟨fun ops => ?encode, fun W hopcode hfunct => ?decode⟩
  case encode =>
    split
    · exact map_readReg T (encodeWith T) _ _
    · exact encodeOperation_eq_error_iff.2 (readReg_of_count T _ ‹_›)
  case decode =>
    rw [decodeWord_of_rCode (op := .jr) hT hopcode hfunct]
    exact congrArg (fun t => Result.ok (.text t)) (textReg_eq T (ROp.name .jr) _)

/-! ### The other I-format translations (`43_i_format.md` R91 to R96) -/

/-- Settles O37: as for `addi`, with the opcode of its own table entry. -/
theorem sltiTranslatesBothWays : Obligations.SltiTranslatesBothWays := by
  intro T hT
  refine ⟨fun ops => ?encode, fun W hopcode => ?decode⟩
  case encode =>
    split
    · exact map_readRegRegInt T (encodeWith T) 16 _ _ _ _
    · exact encodeOperation_eq_error_iff.2 (readRegRegInt_of_count T ‹_› 16 _)
  case decode =>
    rw [decodeWord_of_iCode (op := .slti) hT hopcode]
    exact congrArg (fun t => Result.ok (.text t)) (textRegRegInt_eq T (IOp.name .slti) _ _ _)

/-- Settles O38: the first token fills rs, and rs is printed first. -/
theorem branchesTranslateBothWays : Obligations.BranchesTranslateBothWays := by
  intro T hT p hp
  simp only [List.mem_cons, List.not_mem_nil, or_false] at hp
  rcases hp with rfl | rfl
  all_goals
    refine ⟨fun ops => ?_, fun W hopcode => ?_⟩
    · split
      · exact map_readRegRegInt T (encodeWith T) 16 _ _ _ _
      · exact encodeOperation_eq_error_iff.2 (readRegRegInt_of_count T ‹_› 16 _)
    · rw [decodeWord_of_iCode hT hopcode]
      exact congrArg (fun t => Result.ok (.text t)) (textRegRegInt_eq T _ _ _ _)

/-- Settles O39: rs is written 0, and the decoder's arm does not read it. -/
theorem luiTranslatesBothWays : Obligations.LuiTranslatesBothWays := by
  intro T hT
  refine ⟨fun ops => ?encode, fun W hopcode => ?decode⟩
  case encode =>
    split
    · exact map_readRegImm T (encodeWith T) _ _ _
    · exact encodeOperation_eq_error_iff.2 (readRegImm_of_count T _ ‹_›)
  case decode =>
    rw [decodeWord_of_iCode (op := .lui) hT hopcode]
    exact congrArg (fun t => Result.ok (.text t)) (textRegImm_eq T (IOp.name .lui) _ _)

/-- Settles O40: the tokens of the offset form are read in text order, and it is printed with its parentheses. -/
theorem loadAndStoreTranslateBothWays : Obligations.LoadAndStoreTranslateBothWays := by
  intro T hT p hp
  simp only [List.mem_cons, List.not_mem_nil, or_false] at hp
  rcases hp with rfl | rfl
  all_goals
    refine ⟨fun ops => ?_, fun W hopcode => ?_⟩
    · split
      · exact map_readRegImmReg T (encodeWith T) _ _ _ _
      · exact encodeOperation_eq_error_iff.2 (readRegImmReg_of_count T _ ‹_›)
    · rw [decodeWord_of_iCode hT hopcode]
      exact congrArg (fun t => Result.ok (.text t)) (textRegImmReg_eq T _ _ _ _)

/-- Settles O42: as for `j`, with the opcode of its own table entry. -/
theorem jumpAndLinkTranslatesBothWays : Obligations.JumpAndLinkTranslatesBothWays := by
  intro T hT
  refine ⟨fun ops => ?encode, fun W hopcode => ?roundTrip⟩
  case encode =>
    split
    · exact encodeOperation_j T .jal _
    · exact encodeOperation_j_of_count T .jal ‹_›
  case roundTrip =>
    exact ⟨decodeWord_of_jCode (op := .jal) hT hopcode, encodeLine_textAddr_of_jCode (op := .jal) hopcode⟩

/-! ### The instructions complete (`42_r_format.md`, `43_i_format.md`, `44_j_format.md`) -/

section Complete
variable {s : State} {l : Line} {rest : List Request}

/-- With an Encoder line in front an instruction answers with its word. -/
theorem exec_encoder (h : s.pending = ⟨.encoder, l⟩ :: rest) (i : Instr) :
    exec i s = .next ⟨s.tables, rest, s.output ++ [.ok (.word (encodeWith s.tables i))]⟩ := by
  rw [exec_cons i s _ rest h, deliver_cons s _ _ rest h]
  rfl

/-- With a Decoder line in front an instruction answers with its text. -/
theorem exec_decoder (h : s.pending = ⟨.decoder, l⟩ :: rest) {i : Instr} {t : Line} (ht : render s.tables i = t) :
    exec i s = .next ⟨s.tables, rest, s.output ++ [.ok (.text t)]⟩ := by
  rw [exec_cons i s _ rest h, deliver_cons s _ _ rest h, ← ht]
  rfl

end Complete

/-- Settles O43: for the Encoder the layout of each word, for the Decoder the printed form of each text. -/
theorem rFormatInstructionsComplete : Obligations.RFormatInstructionsComplete := by
  intro s l rest rd rs rt shamt T three shift word text
  have hthree (op : ROp) := textRegRegReg_eq T op.name rd rs rt
  have hshift (op : ROp) := textRegRegInt_eq T op.name rd rt (unpackUnsigned shamt)
  refine ⟨fun h => ?encoder, fun h => ?decoder⟩
  case encoder =>
    exact ⟨exec_encoder h .nop, exec_encoder h (.add rd rs rt), exec_encoder h (.sub rd rs rt),
      exec_encoder h (.and rd rs rt), exec_encoder h (.or rd rs rt), exec_encoder h (.xor rd rs rt),
      exec_encoder h (.slt rd rs rt), exec_encoder h (.sll rd rt shamt), exec_encoder h (.srl rd rt shamt),
      exec_encoder h (.jr rs)⟩
  case decoder =>
    exact ⟨exec_decoder h rfl, exec_decoder h (hthree .add), exec_decoder h (hthree .sub), exec_decoder h (hthree .and),
      exec_decoder h (hthree .or), exec_decoder h (hthree .xor), exec_decoder h (hthree .slt),
      exec_decoder h (hshift .sll), exec_decoder h (hshift .srl), exec_decoder h (textReg_eq T (ROp.name .jr) rs)⟩

/-- Settles O44: as for the R format, with the immediate printed signed. -/
theorem iFormatInstructionsComplete : Obligations.IFormatInstructionsComplete := by
  intro s l rest rs rt imm T two based word text
  have htwo (op : IOp) (a b : RegIx) := textRegRegInt_eq T op.name a b (unpackSigned imm)
  have hbased (op : IOp) := textRegImmReg_eq T op.name rt (unpackSigned imm) rs
  refine ⟨fun h => ?encoder, fun h => ?decoder⟩
  case encoder =>
    exact ⟨exec_encoder h (.addi rt rs imm), exec_encoder h (.slti rt rs imm), exec_encoder h (.lui rt imm),
      exec_encoder h (.lw rt imm rs), exec_encoder h (.sw rt imm rs), exec_encoder h (.beq rs rt imm),
      exec_encoder h (.bne rs rt imm)⟩
  case decoder =>
    exact ⟨exec_decoder h (htwo .addi rt rs), exec_decoder h (htwo .slti rt rs),
      exec_decoder h (textRegImm_eq T (IOp.name .lui) rt _), exec_decoder h (hbased .lw), exec_decoder h (hbased .sw),
      exec_decoder h (htwo .beq rs rt), exec_decoder h (htwo .bne rs rt)⟩

/-- Settles O45: the printed form of an address is its definition. -/
theorem jFormatInstructionsComplete : Obligations.JFormatInstructionsComplete := by
  intro s l rest addr
  exact ⟨fun h => ⟨exec_encoder h (.j addr), exec_encoder h (.jal addr)⟩,
    fun h => ⟨exec_decoder h rfl, exec_decoder h rfl⟩⟩

end Sys2Proof.Machine

namespace Sys2Proof.Machine

/-! ### The spec's tables in numbers (`10_state.md` R13, R15 to R17) -/

/-- Settles O1: the reset tables are the constants of the spec, entry by entry. -/
theorem resetHoldsTheSpecTables : Obligations.ResetHoldsTheSpecTables := by
  have hnames : regNamesStandard.toList.map String.ofList =
      ["zero", "at", "v0", "v1", "a0", "a1", "a2", "a3", "t0", "t1", "t2", "t3", "t4", "t5", "t6", "t7",
       "s0", "s1", "s2", "s3", "s4", "s5", "s6", "s7", "t8", "t9", "k0", "k1", "gp", "sp", "fp", "ra"] := by decide
  exact ⟨hnames, rfl, rfl, rfl⟩

/-- The assigned functs (R15, D11). -/
theorem rFind?_standard_eq_none_iff (c : Code) :
    RTable.standard.find? c = none ↔ c.toNat ∉ [0, 2, 8, 32, 34, 36, 37, 38, 42] := by
  revert c
  decide

/-- The assigned opcodes, 0 being that of the R format (R16, R17, D11). -/
theorem opcode_standard_unassigned_iff (c : Code) :
    (c ≠ 0#6 ∧ ITable.standard.find? c = none ∧ JTable.standard.find? c = none)
      ↔ c.toNat ∉ [0, 2, 3, 4, 5, 8, 10, 15, 35, 43] := by
  revert c
  decide

/-- A funct is looked at, and can be unknown, only behind opcode 0 (R47, R104). -/
theorem decodeWord_eq_unknownFunct_iff {T : Tables} {w : Word} :
    decodeWord T w = .error .unknownFunct ↔ opcodeField w = 0#6 ∧ T.rTable.find? (functField w) = none := by
  rw [decodeWord_eq_error_iff]
  constructor
  · intro h
    obtain ⟨-, hzero, hfunct⟩ | ⟨hkind, -⟩ := decodeWith_error_cases h
    · exact ⟨hzero, rFind?_eq_none.2 hfunct⟩
    · cases hkind
  · rintro ⟨hzero, hfunct⟩
    simp [decodeWith, hzero, hfunct]

theorem decodeWord_eq_unknownOpcode_iff {T : Tables} {w : Word} :
    decodeWord T w = .error .unknownOpcode ↔ opcodeField w ≠ 0#6
      ∧ T.iTable.find? (opcodeField w) = none ∧ T.jTable.find? (opcodeField w) = none := by
  rw [decodeWord_eq_error_iff]
  constructor
  · intro h
    obtain ⟨hkind, -⟩ | ⟨-, hzero, hi, hj⟩ := decodeWith_error_cases h
    · cases hkind
    · exact ⟨hzero, iFind?_eq_none.2 hi, jFind?_eq_none.2 hj⟩
  · rintro ⟨hzero, hi, hj⟩
    simp [decodeWith, hzero, hi, hj]

theorem opcodeField_eq_zero_iff (w : Word) : opcodeField w = 0#6 ↔ (opcodeField w).toNat = 0 :=
  BitVec.toNat_inj.symm

/-- Settles O51: the unknown codes are those no table lists, and the lists are finite. -/
theorem unknownCodesAreExactlyTheUnassigned : Obligations.UnknownCodesAreExactlyTheUnassigned := by
  intro W
  constructor
  · exact decodeWord_eq_unknownOpcode_iff.trans (opcode_standard_unassigned_iff (opcodeField W))
  · exact decodeWord_eq_unknownFunct_iff.trans
      (and_congr (opcodeField_eq_zero_iff W) (rFind?_standard_eq_none_iff (functField W)))

/-- One test of a chain: what holds of a value under the test, and what is left when the test fails. -/
theorem eq_ite_of {α : Sort*} {p : Prop} [Decidable p] {x a b : α} (hpos : p → x = a) (hneg : ¬p → x = b) :
    x = if p then a else b :=
  (ite_eq_iff'.2 ⟨fun h => (hpos h).symm, fun h => (hneg h).symm⟩).symm

/-- Settles O49: each test on a number is a table lookup that succeeds, and the last arm of each chain is the error for a
number that no test has found. -/
theorem dispatchFollowsItsTests : Obligations.DispatchFollowsItsTests := by
  intro W opcode funct rd rs rt shamt imm addr r three shift based branch immediate
  have hopcode {c : Code} (h : opcode = c.toNat) : opcodeField W = c := BitVec.eq_of_toNat_eq h
  have hfunct {c : Code} (h : funct = c.toNat) : functField W = c := BitVec.eq_of_toNat_eq h
  have hR (op : ROp) (h0 : opcode = 0) (h : funct = (RTable.standard.code op).toNat) :=
    decodeWord_of_rCode (T := Tables.standard) standard_wf (op := op) (hopcode (c := 0#6) h0) (hfunct h)
  have hI (op : IOp) (h : opcode = (ITable.standard.code op).toNat) :=
    decodeWord_of_iCode (T := Tables.standard) standard_wf (op := op) (hopcode h)
  have hJ (op : JOp) (h : opcode = (JTable.standard.code op).toNat) :=
    decodeWord_of_jCode (T := Tables.standard) standard_wf (op := op) (hopcode h)
  obtain ⟨hunknownOpcode, hunknownFunct⟩ := unknownCodesAreExactlyTheUnassigned W
  refine eq_ite_of (fun hzero => ?rFormat) fun hzero => ?otherFormats
  case rFormat =>
    refine eq_ite_of (fun hsll => ?shiftOrNop) fun hsll => ?otherFuncts
    case shiftOrNop =>
      refine (hR .sll hzero hsll).trans (eq_ite_of (fun hnop => ?_) fun hshift => ?_)
      · rw [decodeR_sll_nop hnop.1 hnop.2.1 hnop.2.2]
        rfl
      · rw [decodeR_sll_shift (by tauto)]
        rfl
    case otherFuncts =>
      refine eq_ite_of (hR .srl hzero) fun hsrl => eq_ite_of (hR .jr hzero) fun hjr =>
        eq_ite_of (hR .add hzero) fun hadd => eq_ite_of (hR .sub hzero) fun hsub =>
        eq_ite_of (hR .and hzero) fun hand => eq_ite_of (hR .or hzero) fun hor =>
        eq_ite_of (hR .xor hzero) fun hxor => eq_ite_of (hR .slt hzero) fun hslt =>
        hunknownFunct.2 ⟨hzero, ?_⟩
      simp only [List.mem_cons, List.not_mem_nil, or_false, not_or]
      exact ⟨hsll, hsrl, hjr, hadd, hsub, hand, hor, hxor, hslt⟩
  case otherFormats =>
    refine eq_ite_of (hI .lui) fun hlui => eq_ite_of (hI .lw) fun hlw => eq_ite_of (hI .sw) fun hsw =>
      eq_ite_of (hI .beq) fun hbeq => eq_ite_of (hI .bne) fun hbne => eq_ite_of (hI .addi) fun haddi =>
      eq_ite_of (hI .slti) fun hslti => eq_ite_of (hJ .j) fun hj => eq_ite_of (hJ .jal) fun hjal =>
      hunknownOpcode.2 ?_
    simp only [List.mem_cons, List.not_mem_nil, or_false, not_or]
    exact ⟨hzero, hj, hjal, hbeq, hbne, haddi, hslti, hlui, hlw, hsw⟩

/-- Settles O58: each word is split into its fields and its codes are looked up. -/
theorem writtenOutWordsDecode : Obligations.WrittenOutWordsDecode := by
  unfold Obligations.WrittenOutWordsDecode
  decide

end Sys2Proof.Machine

namespace Sys2Proof.Machine

/-! ### Counting words by their fields (`30_encoding.md` R47, `45_decoder.md` R112) -/

theorem natCard_bitVec (n : Nat) : Nat.card (BitVec n) = 2 ^ n := by
  rw [Nat.card_eq_fintype_card, ← FinEnum.card_eq_fintypeCard, FinEnum.card_bitVec]

/-- A word is an opcode and 26 further bits. -/
def opcodeAddrEquiv : Word ≃ Code × Addr where
  toFun w := (opcodeField w, addrField w)
  invFun p := jWord p.1 p.2
  left_inv := jWord_fields
  right_inv p := by simp

/-- A word with opcode 0 is a funct and the four fields before it. -/
def functFieldsEquiv (p : Code → Prop) :
    {w : Word // opcodeField w = 0#6 ∧ p (functField w)} ≃ {c : Code // p c} × RegIx × RegIx × RegIx × Shamt where
  toFun w := (⟨functField w.1, w.2.2⟩, rsField w.1, rtField w.1, rdField w.1, shamtField w.1)
  invFun f := ⟨rWord f.2.1 f.2.2.1 f.2.2.2.1 f.2.2.2.2 f.1.1, by simp, by simpa using f.1.2⟩
  left_inv w := Subtype.ext (rWord_fields w.1 w.2.1)
  right_inv f := by simp

theorem natCard_of_opcode (p : Code → Prop) :
    Nat.card {w : Word // p (opcodeField w)} = Nat.card {c : Code // p c} * 2 ^ 26 := by
  rw [← natCard_bitVec 26, ← Nat.card_prod]
  exact Nat.card_congr ((opcodeAddrEquiv.subtypeEquiv fun _ => Iff.rfl).trans Equiv.prodSubtypeFstEquivSubtypeProd)

theorem natCard_of_funct (p : Code → Prop) :
    Nat.card {w : Word // opcodeField w = 0#6 ∧ p (functField w)} = Nat.card {c : Code // p c} * 2 ^ 20 := by
  rw [Nat.card_congr (functFieldsEquiv p)]
  simp only [Nat.card_prod, natCard_bitVec]
  rfl

/-! ### The counts (R112) -/

/-- A word has a text exactly when neither of its codes is unknown. -/
theorem exists_text_iff {T : Tables} {w : Word} : (∃ t, decodeWord T w = .ok (.text t)) ↔
    decodeWord T w ≠ .error .unknownOpcode ∧ decodeWord T w ≠ .error .unknownFunct := by
  cases hi : decodeWith T w with
  | ok i => simp [decodeWord_of_decodeWith hi]
  | error k =>
    rw [decodeWord_of_error hi]
    rcases decodeWord_error (decodeWord_of_error hi) with rfl | rfl <;> simp

/-- With the spec's tables the legal words are those with an assigned opcode other than 0, or with opcode 0 and an
assigned funct. -/
theorem exists_text_standard_iff (w : Word) : (∃ t, decodeWord Tables.standard w = .ok (.text t)) ↔
    (opcodeField w).toNat ∈ [2, 3, 4, 5, 8, 10, 15, 35, 43]
      ∨ opcodeField w = 0#6 ∧ (functField w).toNat ∈ [0, 2, 8, 32, 34, 36, 37, 38, 42] := by
  obtain ⟨hopcode, hfunct⟩ := unknownCodesAreExactlyTheUnassigned w
  rw [exists_text_iff, Ne, Ne, hopcode, hfunct, not_not, opcodeField_eq_zero_iff, not_and, not_not, List.mem_cons]
  have hzero : (opcodeField w).toNat = 0 → (opcodeField w).toNat ∉ [2, 3, 4, 5, 8, 10, 15, 35, 43] := by
    intro h
    rw [h]
    decide
  change ((opcodeField w).toNat = 0 ∨ _) ∧ ((opcodeField w).toNat = 0 → _) ↔ _
  tauto

theorem natCard_legal :
    Nat.card {w : Word // ∃ t, decodeWord Tables.standard w = .ok (.text t)} = 9 * 2 ^ 26 + 9 * 2 ^ 20 := by
  have hdisjoint : Disjoint (fun w : Word => (opcodeField w).toNat ∈ [2, 3, 4, 5, 8, 10, 15, 35, 43])
      fun w => opcodeField w = 0#6 ∧ (functField w).toNat ∈ [0, 2, 8, 32, 34, 36, 37, 38, 42] := by
    rw [Pi.disjoint_iff]
    intro w
    rw [Prop.disjoint_iff]
    rintro ⟨hassigned, hzero, -⟩
    rw [hzero] at hassigned
    revert hassigned
    decide
  rw [Nat.card_congr ((Equiv.subtypeEquivRight exists_text_standard_iff).trans (subtypeOrEquiv _ _ hdisjoint)),
    Nat.card_sum, natCard_of_opcode fun c => c.toNat ∈ [2, 3, 4, 5, 8, 10, 15, 35, 43],
    natCard_of_funct fun c => c.toNat ∈ [0, 2, 8, 32, 34, 36, 37, 38, 42], Nat.card_eq_fintype_card,
    Nat.card_eq_fintype_card]
  rfl

/-- Printed lines are read back, so no two instructions are printed alike. -/
theorem render_standard_injective : Function.Injective (render Tables.standard) := by
  intro i i' h
  have hfetch := encoderFetch_render i
  rw [h, encoderFetch_render i'] at hfetch
  exact (Fetched.instr.inj hfetch).symm

/-- Only a shift word with rt, rd and shamt 0 decodes to `nop`: the layout leaves rs free. -/
theorem eq_rWord_of_decodeWith_nop {T : Tables} (hT : T.wf = true) {w : Word} (h : decodeWith T w = .ok .nop) :
    w = rWord (rsField w) 0#5 0#5 0#5 0#6 := by
  obtain ⟨op, hzero, hcode, hop⟩ | ⟨op, -, hop⟩ | ⟨op, -, hop⟩ := decodeWith_ok_cases h
  · cases op with
    | sll =>
      obtain ⟨hrt, hrd, hshamt, -⟩ | ⟨-, hshift⟩ := decodeR_sll_cases w
      · have hfunct : functField w = 0#6 := hcode.trans (wf_sll hT)
        conv_lhs => rw [← rWord_fields w hzero, hrt, hrd, hshamt, hfunct]
      · rw [hshift] at hop
        cases hop
    | _ => cases hop
  · cases op <;> cases hop
  · cases op <;> cases hop

theorem decodeWord_eq_nop_iff (w : Word) : decodeWord Tables.standard w = .ok (.text "nop".toList) ↔
    w ∈ Set.range fun rs : RegIx => rWord rs 0#5 0#5 0#5 0#6 := by
  constructor
  · intro h
    obtain ⟨i, hi, htext⟩ := exists_decodeWith_of_decodeWord h
    obtain rfl : Instr.nop = i := render_standard_injective htext
    exact ⟨rsField w, (eq_rWord_of_decodeWith_nop standard_wf hi).symm⟩
  · rintro ⟨rs, rfl⟩
    have htext := decodeWord_of_rCode (T := Tables.standard) (w := rWord rs 0#5 0#5 0#5 0#6) (op := .sll) standard_wf
      (opcodeField_rWord ..) (functField_rWord ..)
    rwa [decodeR_sll_nop (by simp) (by simp) (by simp)] at htext

theorem natCard_nop : Nat.card {w : Word // decodeWord Tables.standard w = .ok (.text "nop".toList)} = 32 := by
  have hinjective : Function.Injective fun rs : RegIx => rWord rs 0#5 0#5 0#5 0#6 := fun a b h => by
    simpa using congrArg rsField h
  calc
    _ = Nat.card (Set.range fun rs : RegIx => rWord rs 0#5 0#5 0#5 0#6) :=
      Nat.card_congr (Equiv.subtypeEquivRight decodeWord_eq_nop_iff)
    _ = Nat.card RegIx := Nat.card_range_of_injective hinjective
    _ = 32 := natCard_bitVec 5

theorem natCard_unknownOpcode :
    Nat.card {w : Word // decodeWord Tables.standard w = .error .unknownOpcode} = 54 * 2 ^ 26 := by
  have hwords (w : Word) : decodeWord Tables.standard w = .error .unknownOpcode ↔
      (opcodeField w).toNat ∉ [0, 2, 3, 4, 5, 8, 10, 15, 35, 43] :=
    (unknownCodesAreExactlyTheUnassigned w).1
  rw [Nat.card_congr (Equiv.subtypeEquivRight hwords),
    natCard_of_opcode fun c => c.toNat ∉ [0, 2, 3, 4, 5, 8, 10, 15, 35, 43], Nat.card_eq_fintype_card]
  rfl

theorem natCard_unknownFunct :
    Nat.card {w : Word // decodeWord Tables.standard w = .error .unknownFunct} = 55 * 2 ^ 20 := by
  have hwords (w : Word) : decodeWord Tables.standard w = .error .unknownFunct ↔
      opcodeField w = 0#6 ∧ (functField w).toNat ∉ [0, 2, 8, 32, 34, 36, 37, 38, 42] :=
    (unknownCodesAreExactlyTheUnassigned w).2.trans (and_congr_left' (opcodeField_eq_zero_iff w).symm)
  rw [Nat.card_congr (Equiv.subtypeEquivRight hwords),
    natCard_of_funct fun c => c.toNat ∉ [0, 2, 8, 32, 34, 36, 37, 38, 42], Nat.card_eq_fintype_card]
  rfl

/-- Settles O52: the words of each kind are a set of codes times the bits left free. -/
theorem wordCounts : Obligations.WordCounts :=
  ⟨natCard_unknownOpcode, natCard_unknownFunct, natCard_legal, natCard_nop⟩

end Sys2Proof.Machine
